-- ==== Sys2Proof/Word.lean ====
section
/-! DEFINITION. The words of the block: bytes, 32-bit command words and 16-bit response words (spec/00_scope.md R7,
spec/30_encoding.md R38 and R43). -/

namespace Sys2Proof

/-- A field element, operand, register or array element: an unsigned integer in 0..255 (R7). -/
abbrev Byte := BitVec 8

/-- What the host presents on CMD (R37, R38). -/
abbrev CommandWord := BitVec 32

/-- What the block emits on RSP (R37, R43). -/
abbrev ResponseWord := BitVec 16

end Sys2Proof
end

