-- ==== Sys2Proof/Syntax.lean ====
section
/-! DEFINITION. The thirteen commands of spec/30_encoding.md R41, one constructor per row of spec/opcode_table.json.
Operands are the bytes of the command word as they stand (R40). -/

namespace Sys2Proof

/-- A command of the block with its operand values (R41). -/
inductive Instr where
  /-- NOP (R83). -/
  | nop
  /-- RDCR a: read control register number a (R84). -/
  | rdcr (number : Byte)
  /-- GFADD a, b (R57). -/
  | gfadd (a b : Byte)
  /-- GFMUL a, b (R58). -/
  | gfmul (a b : Byte)
  /-- GFEXP a (R59). -/
  | gfexp (exponent : Byte)
  /-- GFLOG a (R60). -/
  | gflog (element : Byte)
  /-- CCLR (R64). -/
  | cclr
  /-- CPUSH a (R65). -/
  | cpush (coefficient : Byte)
  /-- PEVAL a (R68). -/
  | peval (x : Byte)
  /-- SPLIT a (R69). -/
  | split (count : Byte)
  /-- PCLR (R73). -/
  | pclr
  /-- PPUSH a, b (R74). -/
  | ppush (x y : Byte)
  /-- LAGR (R79). -/
  | lagr
deriving DecidableEq, Repr

/-- The five control registers RDCR reads (spec/10_state.md R20). -/
inductive CtrlReg where
  | status | err | kc | np | res
deriving DecidableEq, Repr

end Sys2Proof
end

