-- ==== Sys2Proof/Decode.lean ====
section
/-! DEFINITION. Decoding and encoding of command words (spec/30_encoding.md R38 to R46). -/

namespace Sys2Proof

/-- The four fields of a command word (R38). -/
structure Fields where
  op : Byte
  a : Byte
  b : Byte
  z : Byte
deriving DecidableEq, Repr

/-- R38: op = word[31:24], a = word[23:16], b = word[15:8], z = word[7:0]. -/
def fieldsOf (w : CommandWord) : Fields where
  op := w.extractLsb' 24 8
  a := w.extractLsb' 16 8
  b := w.extractLsb' 8 8
  z := w.extractLsb' 0 8

/-- The word whose four fields are given (R38). -/
def wordOf (op a b z : Byte) : CommandWord := op ++ a ++ b ++ z

/-- Why a word is illegal (R42). Every reason raises the one fault ILLEGAL. -/
inductive Illegal where
  /-- R42 (b): z is not 0x00. -/
  | zField
  /-- R42 (a): op is not one of the thirteen values. -/
  | opcode
  /-- R42 (c), (d): an operand field the format does not use is not 0x00. -/
  | unusedField
  /-- R42 (e): RDCR with a number above 0x04. -/
  | registerNumber
deriving DecidableEq, Repr

/-- Format Z: a and b must be zero (R39). -/
def formatZ (f : Fields) (i : Instr) : Except Illegal Instr :=
  if f.a = 0#8 ∧ f.b = 0#8 then .ok i else .error .unusedField

/-- Format A: b must be zero (R39). -/
def formatA (f : Fields) (mk : Byte → Instr) : Except Illegal Instr :=
  if f.b = 0#8 then .ok (mk f.a) else .error .unusedField

/-- Format AB: both operand fields are used (R39). -/
def formatAB (f : Fields) (mk : Byte → Byte → Instr) : Except Illegal Instr :=
  .ok (mk f.a f.b)

/-- RDCR: format A, and then the number is at most 0x04 (R46). -/
def formatNumber (f : Fields) (mk : Byte → Instr) : Except Illegal Instr :=
  if f.b ≠ 0#8 then .error .unusedField
  else if f.a ≤ 0x04#8 then .ok (mk f.a)
  else .error .registerNumber

/-- R46 after the test of z: look the opcode up (R41) and apply its format. -/
def decodeFields (f : Fields) : Except Illegal Instr :=
  match f.op.toNat with
  | 0x00 => formatZ f .nop
  | 0x01 => formatNumber f .rdcr
  | 0x10 => formatAB f .gfadd
  | 0x11 => formatAB f .gfmul
  | 0x12 => formatA f .gfexp
  | 0x13 => formatA f .gflog
  | 0x20 => formatZ f .cclr
  | 0x21 => formatA f .cpush
  | 0x22 => formatA f .peval
  | 0x23 => formatA f .split
  | 0x30 => formatZ f .pclr
  | 0x31 => formatAB f .ppush
  | 0x32 => formatZ f .lagr
  | _ => .error .opcode

/-- R46: a total function from words to a command or the verdict illegal, which reads no state. -/
def decode (w : CommandWord) : Except Illegal Instr :=
  if (fieldsOf w).z = 0#8 then decodeFields (fieldsOf w) else .error .zField

/-- The word of a command: op·2^24 + a·2^16 + b·2^8 (R38, R41, R47). -/
def encode : Instr → CommandWord
  | .nop => wordOf 0x00#8 0#8 0#8 0#8
  | .rdcr number => wordOf 0x01#8 number 0#8 0#8
  | .gfadd a b => wordOf 0x10#8 a b 0#8
  | .gfmul a b => wordOf 0x11#8 a b 0#8
  | .gfexp exponent => wordOf 0x12#8 exponent 0#8 0#8
  | .gflog element => wordOf 0x13#8 element 0#8 0#8
  | .cclr => wordOf 0x20#8 0#8 0#8 0#8
  | .cpush coefficient => wordOf 0x21#8 coefficient 0#8 0#8
  | .peval x => wordOf 0x22#8 x 0#8 0#8
  | .split count => wordOf 0x23#8 count 0#8 0#8
  | .pclr => wordOf 0x30#8 0#8 0#8 0#8
  | .ppush x y => wordOf 0x31#8 x y 0#8
  | .lagr => wordOf 0x32#8 0#8 0#8 0#8

/-- One row of the opcode map R41: a word w selects it when w &&& mask = pattern. -/
structure OpcodeRow where
  mnemonic : String
  pattern : CommandWord
  mask : CommandWord
deriving DecidableEq, Repr

/-- R41's table, row by row. RDCR has the further condition a ≤ 0x04, which `rowSelects` adds. -/
def opcodeRows : List OpcodeRow :=
  [⟨"NOP", 0x00000000, 0xFFFFFFFF⟩,
   ⟨"RDCR", 0x01000000, 0xFF00FFFF⟩,
   ⟨"GFADD", 0x10000000, 0xFF0000FF⟩,
   ⟨"GFMUL", 0x11000000, 0xFF0000FF⟩,
   ⟨"GFEXP", 0x12000000, 0xFF00FFFF⟩,
   ⟨"GFLOG", 0x13000000, 0xFF00FFFF⟩,
   ⟨"CCLR", 0x20000000, 0xFFFFFFFF⟩,
   ⟨"CPUSH", 0x21000000, 0xFF00FFFF⟩,
   ⟨"PEVAL", 0x22000000, 0xFF00FFFF⟩,
   ⟨"SPLIT", 0x23000000, 0xFF00FFFF⟩,
   ⟨"PCLR", 0x30000000, 0xFFFFFFFF⟩,
   ⟨"PPUSH", 0x31000000, 0xFF0000FF⟩,
   ⟨"LAGR", 0x32000000, 0xFFFFFFFF⟩]

/-- R41: the word matches the row, and for RDCR its operand is at most 0x04. -/
def rowSelects (w : CommandWord) (r : OpcodeRow) : Bool :=
  w &&& r.mask = r.pattern ∧ (r.pattern = 0x01000000 → (fieldsOf w).a ≤ 0x04#8)

/-- The mnemonic of a command (R41). -/
def Instr.mnemonic : Instr → String
  | .nop => "NOP"
  | .rdcr _ => "RDCR"
  | .gfadd _ _ => "GFADD"
  | .gfmul _ _ => "GFMUL"
  | .gfexp _ => "GFEXP"
  | .gflog _ => "GFLOG"
  | .cclr => "CCLR"
  | .cpush _ => "CPUSH"
  | .peval _ => "PEVAL"
  | .split _ => "SPLIT"
  | .pclr => "PCLR"
  | .ppush _ _ => "PPUSH"
  | .lagr => "LAGR"

/-- What the decoder reads from an instruction whose bits are w, numbered as spec/opcode_table.json numbers them.
A command is one 32-bit word (R45), so bit k of w is bit k of the word; bits from nbits up are zero, and no row is wider
than 32 bits. DESIGN CHOICE: a wider row is refused (log entry 11). Safe. -/
def decodeTableWord (nbits w : Nat) : Option Instr :=
  if nbits ≤ 32 then
    match decode (BitVec.ofNat 32 (w % 2 ^ nbits)) with
    | .ok i => some i
    | .error _ => none
  else none

end Sys2Proof
end

