-- ==== Sys2Proof/Machine/Memory.lean ====
section
/-! DEFINITION. The byte spaces COEF, PX and PY (spec/20_memory.md R26): lists of (index, byte) cells, indices strictly
rising. An index that is not listed holds no value (spec/10_state.md R17), so a write always lists its index. -/

namespace Sys2Proof.Machine

/-- A byte space: the cells that hold a value. DESIGN CHOICE: an unlisted index holds no value (log entry 3). Safe. -/
abbrev Memory := List Host.Cell

/-- The byte at an index, or none where the element holds no value (R17). -/
def Memory.read : Memory → Nat → Option Byte
  | [], _ => none
  | (j, v) :: rest, i => if j = i then some v else Memory.read rest i

/-- Write one byte at an index (R8, MemWrite), keeping the canonical form. -/
def Memory.write : Memory → Nat → Byte → Memory
  | [], i, v => [(i, v)]
  | (j, w) :: rest, i, v =>
    if i < j then (i, v) :: (j, w) :: rest
    else if i = j then (i, v) :: rest
    else (j, w) :: Memory.write rest i v

/-- The canonical form: indices strictly rising. -/
def Memory.wf : Memory → Bool
  | [] => true
  | [_] => true
  | (i, _) :: (j, w) :: rest => decide (i < j) && Memory.wf ((j, w) :: rest)

/-- The space that holds the given bytes at indices 0, 1, 2, ... and nothing else. -/
def Memory.ofBytes (bs : List Byte) : Memory := (List.range bs.length).zip bs

/-- Exactly the indices 0..n-1 hold a value. -/
abbrev Memory.HoldsBelow (m : Memory) (n : Nat) : Prop := m.map Prod.fst = List.range n

end Sys2Proof.Machine
end

