-- ==== Sys2Proof/Config.lean ====
section
/-! DEFINITION. The implementation parameters of spec/00_scope.md R6. The block's own are fixed constants; the host-side
ones the spec leaves OPEN (spec/92_eei_decisions.md, OPEN parameters) are an argument of the host procedures and of
nothing else. The block has no free value: the spec leaves no result of a command undefined. -/

namespace Sys2Proof.Config

/-- The reduction constant RED (R2, R6). -/
def reductionConstant : Nat := 29

/-- The order ORD of the multiplicative group (R6). -/
def groupOrder : Nat := 255

/-- The coefficient buffer's capacity MAXK (R6, R13). -/
def maxCoefficients : Nat := 255

/-- The point buffer's capacity MAXP (R6, R14). -/
def maxPoints : Nat := 255

/-- What the host fixes and the spec leaves open (R6; spec/91_not_in_source.md N17; R95). DESIGN CHOICE: an argument,
so a claim about a host procedure holds for every value (log entry 12). Safe. -/
structure HostParams where
  /-- RNG_RETRY_CAP: how many times the host redraws a zero byte before it gives up (R91; spec/92_eei_decisions.md, OPEN
  parameters). A host that redraws without bound is one whose cap is no smaller than the bytes its source will yield. -/
  rngRetryCap : Nat
  /-- MAX_SECRET_BYTES: the longest secret the host accepts (R92). -/
  maxSecretBytes : Nat
  /-- Whether capital A to F are accepted on input (R88 and N17 leave it open). -/
  acceptsCapitals : Bool
  /-- Whether COMBINE on empty payloads raises FormatError, the other outcome R95 allows. -/
  emptyPayloadFails : Bool
deriving DecidableEq, Repr

end Sys2Proof.Config
end

