-- ==== Sys2Proof/Machine/Tables.lean ====
section
/-! DEFINITION. Construction of the exponent and logarithm tables (spec/40_field.md R49), which is part of reset
(spec/70_reset_and_hazards.md R106). -/

namespace Sys2Proof.Machine

/-- EXPS at indices 0..255 and LOGS at indices 1..255 (spec/10_state.md R11, R12). Entry k of `logs` is LOGS[k + 1]:
LOGS[0] holds no value and has no place. DESIGN CHOICE (log entry 4). Safe. -/
structure Tables where
  exps : Vector Byte 256
  logs : Vector Byte 255
deriving DecidableEq, Repr

/-- R49's last two lines: x << 1, and when that reaches 256, (x ^ 29) & 0xFF. -/
def shiftReduce (x : Nat) : Nat :=
  if x * 2 ≥ 256 then (x * 2 ^^^ Config.reductionConstant) &&& 0xFF else x * 2

/-- One iteration's two writes: EXPS[i] <- x and LOGS[x] <- i (R49). By R50 (a) x is in 1..255 at this point. -/
def Tables.record (t : Tables) (i x : Nat) : Tables where
  exps := t.exps.setIfInBounds i (BitVec.ofNat 8 x)
  logs := t.logs.setIfInBounds (x - 1) (BitVec.ofNat 8 i)

/-- R49's loop: `n` iterations still to run, at exponent i with working value x. -/
def constructFrom : Nat → Nat → Nat → Tables → Tables
  | 0, _, _, t => t
  | n + 1, i, x, t => constructFrom n (i + 1) (shiftReduce x) (t.record i x)

/-- R49: 256 iterations from x = 1, both ends of i = 0..255 included. R50: every entry is written. -/
def Tables.constructed : Tables :=
  constructFrom 256 0 1 ⟨Vector.replicate 256 0, Vector.replicate 255 0⟩

end Sys2Proof.Machine
end

