-- ==== Sys2Proof/Machine/State.lean ====
section
/-! DEFINITION. The state of the block (spec/10_state.md R10), its value after reset (R24), and the ways a step of the
model can stop. The block's own faults (spec/60_exceptions.md R98) are next states, not stops. -/

namespace Sys2Proof.Machine

/-- The three byte spaces an element of which can hold no value, and LOGS, whose index 0 holds none (R12, R17). -/
inductive Space where
  | logs | coef | px | py
deriving DecidableEq, Repr

/-- The block's seven faults (spec/60_exceptions.md R98). Taking one is a next state (R100). -/
inductive FaultCode where
  | illegal | log0 | range | empty | full | few | kn
deriving DecidableEq, Repr

/-- What the host can do at the ports between two commands (spec/30_encoding.md R37). -/
inductive HostAction where
  /-- One command word presented on CMD. -/
  | command (w : CommandWord)
  /-- The reset event on RST. -/
  | reset
deriving DecidableEq, Repr

/-- Why the MODEL stops. Neither reason can arise in a state that a run from reset reaches (R17, R15). -/
inductive Fault where
  /-- A read of an array element that holds no value (R17). Raised by PEVAL and SPLIT for COEF, by PPUSH for PX, by LAGR for
  PX, PY and LOGS[0] (two equal X coordinates). Safe: the spec says no rule makes such a read. -/
  | noValue (space : Space) (index : Nat)
  /-- A write of an array element that does not exist, index 255 (R14, R26). Raised by PPUSH on a full point buffer.
  Safe: R15 says the buffer cannot overflow. -/
  | noElement (space : Space) (index : Nat)
deriving DecidableEq, Repr

/-- Why the model gives an instruction no meaning. -/
inductive Refusal where
  /-- Raised only by an arm of exec for an instruction that has no meaning yet; no arm does. Safe. -/
  | notModelled (mnemonic : String)
deriving DecidableEq, Repr

/-- The complete architectural state R10, and the two port streams of R37, which are the model's own (log entry 1). -/
structure State where
  /-- EXPS[0..255] (R11). -/
  exps : Vector Byte 256
  /-- LOGS[1..255]: entry k is LOGS[k + 1] (R12). -/
  logs : Vector Byte 255
  /-- COEF, the polynomial's coefficients, COEF[0] the constant term (R13). -/
  coef : Memory
  /-- KC, the number of valid coefficients (R13). -/
  kc : Byte
  /-- PX, the points' X coordinates (R14). -/
  px : Memory
  /-- PY, the points' Y coordinates (R14). -/
  py : Memory
  /-- NP, the number of valid points (R14). -/
  np : Byte
  /-- RES, the last computed result (R16). -/
  res : Byte
  /-- STATUS.DUP (R18). -/
  dup : Bool
  /-- ERR, the latched fault code, 0x00 for none (R19). -/
  err : Byte
  /-- What the host will still do, in order: command words on CMD and resets on RST (R37). The host's, not the block's.
  DESIGN CHOICE (log entry 1). Safe. -/
  cmd : List HostAction
  /-- RSP: the response words emitted so far, oldest first (R37). The block never reads it back (R22). -/
  rsp : List ResponseWord
deriving DecidableEq, Repr

/-- The block after reset (R24), with nothing pending on the ports and nothing emitted (log entry 2). -/
def State.reset : State where
  exps := Tables.constructed.exps
  logs := Tables.constructed.logs
  coef := []
  kc := 0x00#8
  px := []
  py := []
  np := 0x00#8
  res := 0x00#8
  dup := false
  err := 0x00#8
  cmd := []
  rsp := []

/-- The outcome of one command. -/
abbrev Result := Host.Outcome State Fault Refusal

end Sys2Proof.Machine
end

