-- ==== Sys2Proof/Machine/Flags.lean ====
section
/-! DEFINITION. The flags of the block, DUP and FLT, and the register STATUS (spec/10_state.md R18). There are no
arithmetic condition codes. -/

namespace Sys2Proof.Machine

/-- STATUS.FLT: the block is in the fault state, ERR ≠ 0 (R18, spec/60_exceptions.md R101). -/
def State.flt (s : State) : Bool := s.err ≠ 0#8

/-- STATUS: bit 0 DUP, bit 1 FLT, bits 7:2 read as 0 (R18, R84). -/
def State.status (s : State) : Byte := 0#6 ++ BitVec.ofBool s.flt ++ BitVec.ofBool s.dup

/-- STATUS.DUP <- 1 (spec/42_combine.md R74). -/
def State.setDup (s : State) : State := { s with dup := true }

end Sys2Proof.Machine
end

