-- ==== Sys2Proof/Machine/Ops.lean ====
section
/-! DEFINITION. The named operations over the state that every command is written with: emitting a response word, writing
RES, loading and emptying the two buffers, taking a fault, the fault-state gate, and reset. -/

namespace Sys2Proof.Machine

/-- `emit(code, data)`: append {code, data} to the response stream (spec/30_encoding.md R43). -/
def State.emit (s : State) (code data : Byte) : State :=
  { s with rsp := s.rsp ++ [code ++ data] }

/-- One OK response word per byte, in order (spec/41_split.md R69). -/
def State.emitAll (s : State) (data : List Byte) : State :=
  { s with rsp := s.rsp ++ data.map (fun y => 0x00#8 ++ y) }

/-- RES <- r (spec/10_state.md R16). -/
def State.setRes (s : State) (r : Byte) : State := { s with res := r }

/-- ERR <- c (R19). -/
def State.setErr (s : State) (c : Byte) : State := { s with err := c }

/-- COEF[KC] <- a; KC <- KC + 1 (spec/41_split.md R65). -/
def State.pushCoef (s : State) (a : Byte) : State :=
  { s with coef := s.coef.write s.kc.toNat a, kc := s.kc + 1 }

/-- KC <- 0; the entries that were valid hold no value (spec/41_split.md R64, spec/10_state.md R17). -/
def State.clearCoef (s : State) : State := { s with coef := [], kc := 0x00#8 }

/-- PX[NP] <- x; PY[NP] <- y; NP <- NP + 1 (spec/42_combine.md R74). -/
def State.pushPoint (s : State) (x y : Byte) : State :=
  { s with px := s.px.write s.np.toNat x, py := s.py.write s.np.toNat y, np := s.np + 1 }

/-- NP <- 0; STATUS.DUP <- 0; the entries that were valid hold no value (spec/42_combine.md R73, spec/10_state.md R17). -/
def State.clearPoints (s : State) : State := { s with px := [], py := [], np := 0x00#8, dup := false }

/-- The host's next action has been taken off the ports (spec/30_encoding.md R37). -/
def State.setCmd (s : State) (actions : List HostAction) : State := { s with cmd := actions }

/-- The codes of spec/60_exceptions.md R98. -/
def FaultCode.code : FaultCode → Byte
  | .illegal => 0x01#8
  | .log0 => 0x02#8
  | .range => 0x03#8
  | .empty => 0x04#8
  | .full => 0x05#8
  | .few => 0x06#8
  | .kn => 0x07#8

/-- Fault entry, `raise F`: ERR <- c; emit(c, 0x00); nothing else (spec/60_exceptions.md R100). -/
def State.raise (s : State) (f : FaultCode) : State := (s.setErr f.code).emit f.code 0x00#8

/-- The answer of the fault state to a command it does not perform: emit(ERR, 0x00) (R101). -/
def State.answerLatched (s : State) : State := s.emit s.err 0x00#8

/-- The fault-state gate: while ERR ≠ 0 the command is not performed (R101, R99 step 1). -/
def unlessFaulted (s : State) (perform : Result) : Result :=
  if s.flt then .next s.answerLatched else perform

/-- `raise F` as the outcome of a command (R100). -/
def raising (f : FaultCode) (s : State) : Result := .next (s.raise f)

/-- A command that computed r: RES <- r; emit(0x00, r). -/
def finishing (r : Byte) (s : State) : Result := .next ((s.setRes r).emit 0x00#8 r)

/-- A word that is illegal in form: ILLEGAL, or in the fault state the latched code (R42, R101). -/
def takeIllegal (s : State) : Result := unlessFaulted s (raising .illegal s)

/-- Use a value read from the arrays, or stop where an element held none. -/
def withValue {α : Type} (v : Except Fault α) (k : α → Result) : Result :=
  match v with
  | .ok x => k x
  | .error f => .fault f

/-- Reset (spec/70_reset_and_hazards.md R106, R107): every piece of the block's state to its reset value. What the host
will still do and the words already emitted are not the block's state and stay; no word is emitted. -/
def State.resetBlock (s : State) : State := { State.reset with cmd := s.cmd, rsp := s.rsp }

end Sys2Proof.Machine
end

