-- ==== Sys2Proof/Machine/Operands.lean ====
section
/-! DEFINITION. How commands reach their operands: table entries, buffer elements and control registers
(spec/20_memory.md R26, spec/10_state.md R20, spec/40_field.md R61). Operand bytes come from the command word as they
stand (spec/30_encoding.md R40). -/

namespace Sys2Proof.Machine

/-- EXPS[i] for an 8-bit index (spec/10_state.md R11). -/
def State.expAt (s : State) (i : Byte) : Byte := s.exps[i.toNat]'(i.isLt)

/-- LOGS[e] for a nonzero element (spec/10_state.md R12); LOGS[0] cannot be asked for. -/
def State.log (s : State) (e : Byte) (h : e ≠ 0#8) : Byte :=
  s.logs[e.toNat - 1]'(by
    have := e.isLt
    have : e.toNat ≠ 0 := fun h0 => h (BitVec.eq_of_toNat_eq (by simpa using h0))
    omega)

/-- LOGS[e] where the rule itself makes no test for zero (spec/42_combine.md R75): LOGS[0] holds no value. -/
def State.logAt (s : State) (e : Byte) : Except Fault Byte :=
  if h : e = 0#8 then .error (.noValue .logs 0) else .ok (s.log e h)

/-- A read of one element, which stops where the element holds no value (spec/10_state.md R17). -/
def element (space : Space) (m : Memory) (i : Nat) : Except Fault Byte :=
  match m.read i with
  | some v => .ok v
  | none => .error (.noValue space i)

/-- COEF[j]. -/
def State.coefAt (s : State) (j : Nat) : Except Fault Byte := element .coef s.coef j

/-- PX[i]. -/
def State.pxAt (s : State) (i : Nat) : Except Fault Byte := element .px s.px i

/-- PY[i]. -/
def State.pyAt (s : State) (i : Nat) : Except Fault Byte := element .py s.py i

/-- The register a control-register number names; 0x05 to 0xFF are reserved (spec/10_state.md R20). -/
def ctrlRegOf (number : Byte) : Option CtrlReg :=
  match number.toNat with
  | 0x00 => some .status
  | 0x01 => some .err
  | 0x02 => some .kc
  | 0x03 => some .np
  | 0x04 => some .res
  | _ => none

/-- The value RDCR reads (spec/43_system.md R84). -/
def State.ctrl (s : State) : CtrlReg → Byte
  | .status => s.status
  | .err => s.err
  | .kc => s.kc
  | .np => s.np
  | .res => s.res

end Sys2Proof.Machine
end

