-- ==== Sys2Proof/Machine/Field.lean ====
section
/-! DEFINITION. Field arithmetic and its commands GFADD, GFMUL, GFEXP, GFLOG (spec/40_field.md). -/

namespace Sys2Proof.Machine

/-- Field addition and subtraction (R53). -/
def gfAdd (a b : Byte) : Byte := a ^^^ b

/-- The byte EXPS[n mod 255] (R51, R54). -/
def State.expMod (s : State) (n : Nat) : Byte := s.expAt (BitVec.ofNat 8 (n % Config.groupOrder))

/-- Field multiplication (R54): zero if an operand is zero, else by the sum of the logarithms mod 255. -/
def State.gfMul (s : State) (a b : Byte) : Byte :=
  if h : a = 0#8 ∨ b = 0#8 then 0x00#8
  else s.expMod ((s.log a (fun h0 => h (.inl h0))).toNat + (s.log b (fun h0 => h (.inr h0))).toNat)

/-- GFADD (R57). -/
def execGfadd (a b : Byte) (s : State) : Result := unlessFaulted s (finishing (gfAdd a b) s)

/-- GFMUL (R58). -/
def execGfmul (a b : Byte) (s : State) : Result := unlessFaulted s (finishing (s.gfMul a b) s)

/-- GFEXP (R59): the operand indexes the table directly. -/
def execGfexp (exponent : Byte) (s : State) : Result := unlessFaulted s (finishing (s.expAt exponent) s)

/-- GFLOG (R60): LOG0 on 0x00. -/
def execGflog (e : Byte) (s : State) : Result :=
  unlessFaulted s (if h : e = 0#8 then raising .log0 s else finishing (s.log e h) s)

end Sys2Proof.Machine
end

