-- ==== Sys2Proof/Machine/Combine.lean ====
section
/-! DEFINITION. The Lagrange interpolation engine: PCLR, PPUSH, LAGR (spec/42_combine.md). The source's X_j = 0 branch is
not part of the block (R78). -/

namespace Sys2Proof.Machine

/-- R74's search of the valid X coordinates for x: `count` still to look at, from index i. -/
def State.findX (s : State) (x : Byte) : (count i : Nat) → Except Fault Bool
  | 0, _ => .ok false
  | count + 1, i =>
    match s.pxAt i with
    | .ok v => if v = x then .ok true else s.findX x count (i + 1)
    | .error f => .error f

/-- One step of R75's inner loop: product <- (product + LOGS[X_j] - LOGS[X_i ^ X_j] + 255) mod 255. The added 255 comes
before the subtraction of a byte, so the natural-number difference is exact (R76). -/
def State.exponentStep (s : State) (xi xj : Byte) (product : Nat) : Except Fault Nat :=
  match s.logAt xj, s.logAt (gfAdd xi xj) with
  | .ok lj, .ok ld => .ok ((product + lj.toNat + 255 - ld.toNat) % Config.groupOrder)
  | .error f, _ => .error f
  | .ok _, .error f => .error f

/-- R75's inner loop over the indices j of the list, skipping j = i. -/
def State.exponentLoop (s : State) (i : Nat) (xi : Byte) : List Nat → Nat → Except Fault Nat
  | [], product => .ok product
  | j :: js, product =>
    if j = i then s.exponentLoop i xi js product
    else
      match s.pxAt j with
      | .ok xj =>
        match s.exponentStep xi xj product with
        | .ok p => s.exponentLoop i xi js p
        | .error f => .error f
      | .error f => .error f

/-- The exponent R75 reaches for point i with value y ≠ 0: log(y), then the inner loop over j = 0..NP-1. -/
def State.termExponent (s : State) (i : Nat) (y : Byte) (h : y ≠ 0#8) : Except Fault Nat :=
  match s.pxAt i with
  | .ok xi => s.exponentLoop i xi (List.range s.np.toNat) (s.log y h).toNat
  | .error f => .error f

/-- What point i adds to the sum (R75): nothing when its Y is zero, else EXPS[product]. -/
def State.term (s : State) (i : Nat) : Except Fault Byte :=
  match s.pyAt i with
  | .ok y =>
    if h : y = 0#8 then .ok 0x00#8
    else
      match s.termExponent i y h with
      | .ok p => .ok (s.expAt (BitVec.ofNat 8 p))
      | .error f => .error f
  | .error f => .error f

/-- R75's outer loop over the points of the list. -/
def State.sumTerms (s : State) : List Nat → Byte → Except Fault Byte
  | [], sum => .ok sum
  | i :: is, sum =>
    match s.term i with
    | .ok t => s.sumTerms is (gfAdd sum t)
    | .error f => .error f

/-- The value at X = 0 of the polynomial through the points (R75). -/
def State.lagrange0 (s : State) : Except Fault Byte := s.sumTerms (List.range s.np.toNat) 0x00#8

/-- PCLR (R73). -/
def execPclr (s : State) : Result := unlessFaulted s (.next (s.clearPoints.emit 0x00#8 0x00#8))

/-- Store a new point at index NP (R74). Index 255 does not exist (R14); by R15 it is never reached (log entry 6). -/
def storePoint (x y : Byte) (s : State) : Result :=
  if s.np.toNat = Config.maxPoints then .fault (.noElement .px s.np.toNat)
  else .next ((s.pushPoint x y).emit 0x00#8 0x00#8)

/-- PPUSH (R74): RANGE on X = 0; a repeated X is ignored, sets DUP and answers 0x01; else the point is stored. -/
def execPpush (x y : Byte) (s : State) : Result :=
  unlessFaulted s
    (if x = 0#8 then raising .range s
     else withValue (s.findX x s.np.toNat 0) fun found =>
       if found then .next (s.setDup.emit 0x00#8 0x01#8) else storePoint x y s)

/-- LAGR (R79): FEW with fewer than two points. -/
def execLagr (s : State) : Result :=
  unlessFaulted s
    (if s.np.toNat < 2 then raising .few s
     else withValue s.lagrange0 fun r => finishing r s)

end Sys2Proof.Machine
end

