-- ==== Sys2Proof/Machine/Split.lean ====
section
/-! DEFINITION. The split polynomial evaluator: CCLR, CPUSH, PEVAL, SPLIT (spec/41_split.md). -/

namespace Sys2Proof.Machine

/-- R66's loop over coefficients n-1 down to 0, from the accumulator acc. -/
def State.hornerFrom (s : State) (x : Byte) : Nat → Byte → Except Fault Byte
  | 0, acc => .ok acc
  | j + 1, acc =>
    match s.coefAt j with
    | .ok c => s.hornerFrom x j (gfAdd (s.gfMul acc x) c)
    | .error f => .error f

/-- The polynomial's value at x by Horner's method (R66). -/
def State.horner (s : State) (x : Byte) : Except Fault Byte := s.hornerFrom x s.kc.toNat 0x00#8

/-- Y(1), ..., Y(n) in rising order (R69, R71). -/
def State.evaluations (s : State) : Nat → Except Fault (List Byte)
  | 0 => .ok []
  | n + 1 =>
    match s.evaluations n with
    | .ok ys =>
      match s.horner (BitVec.ofNat 8 (n + 1)) with
      | .ok y => .ok (ys ++ [y])
      | .error f => .error f
    | .error f => .error f

/-- CCLR (R64). -/
def execCclr (s : State) : Result := unlessFaulted s (.next (s.clearCoef.emit 0x00#8 0x00#8))

/-- CPUSH (R65): FULL when KC = 255. -/
def execCpush (a : Byte) (s : State) : Result :=
  unlessFaulted s
    (if s.kc.toNat = Config.maxCoefficients then raising .full s
     else .next ((s.pushCoef a).emit 0x00#8 0x00#8))

/-- PEVAL (R68): RANGE, then EMPTY, then the value. -/
def execPeval (x : Byte) (s : State) : Result :=
  unlessFaulted s
    (if x = 0#8 then raising .range s
     else if s.kc = 0#8 then raising .empty s
     else withValue (s.horner x) fun r => finishing r s)

/-- SPLIT (R69): RANGE, EMPTY, KN, then one word per share; RES is the last value. -/
def execSplit (n : Byte) (s : State) : Result :=
  unlessFaulted s
    (if n = 0#8 then raising .range s
     else if s.kc = 0#8 then raising .empty s
     else if s.kc.toNat > n.toNat then raising .kn s
     else withValue (s.evaluations n.toNat) fun ys =>
       .next ((s.emitAll ys).setRes (ys.getLastD s.res)))

end Sys2Proof.Machine
end

