-- ==== Sys2Proof/Machine/System.lean ====
section
/-! DEFINITION. The system commands NOP and RDCR (spec/43_system.md). -/

namespace Sys2Proof.Machine

/-- NOP (R83). -/
def execNop (s : State) : Result := unlessFaulted s (.next (s.emit 0x00#8 0x00#8))

/-- RDCR (R84): performed in the fault state too; a number above 0x04 is illegal in form (R42 (e)) and is answered as any
illegal word (R101). -/
def execRdcr (number : Byte) (s : State) : Result :=
  match ctrlRegOf number with
  | some r => .next (s.emit 0x00#8 (s.ctrl r))
  | none => takeIllegal s

end Sys2Proof.Machine
end

