-- ==== Sys2Proof/Machine/Dispatch.lean ====
section
/-! DEFINITION. One arm per command (spec/30_encoding.md R41). -/

namespace Sys2Proof.Machine

def exec (i : Instr) (s : State) : Host.Outcome State Fault Refusal :=
  match i with
  | .nop => Sys2Proof.Machine.execNop s
  | .rdcr number => Sys2Proof.Machine.execRdcr number s
  | .gfadd a b => Sys2Proof.Machine.execGfadd a b s
  | .gfmul a b => Sys2Proof.Machine.execGfmul a b s
  | .gfexp exponent => Sys2Proof.Machine.execGfexp exponent s
  | .gflog element => Sys2Proof.Machine.execGflog element s
  | .cclr => Sys2Proof.Machine.execCclr s
  | .cpush coefficient => Sys2Proof.Machine.execCpush coefficient s
  | .peval x => Sys2Proof.Machine.execPeval x s
  | .split count => Sys2Proof.Machine.execSplit count s
  | .pclr => Sys2Proof.Machine.execPclr s
  | .ppush x y => Sys2Proof.Machine.execPpush x y s
  | .lagr => Sys2Proof.Machine.execLagr s

end Sys2Proof.Machine
end

