-- ==== Sys2Proof/Machine/Step.lean ====
section
/-! DEFINITION. One step of the machine: the host's next action at the ports (spec/30_encoding.md R37). The block has no
program counter and fetches nothing (spec/10_state.md R21). -/

namespace Sys2Proof.Machine

/-- A reset is taken (spec/70_reset_and_hazards.md R107); a command word is decoded and performed as one atomic step
(spec/00_scope.md R5), or is illegal (spec/30_encoding.md R42); with nothing presented the block waits.
DESIGN CHOICE: waiting is a step that changes nothing (log entry 5). Safe. -/
def step (s : State) : Host.Outcome State Fault Refusal :=
  match s.cmd with
  | [] => .next s
  | .reset :: rest => .next (s.setCmd rest).resetBlock
  | .command w :: rest =>
    match decode w with
    | .ok i => exec i (s.setCmd rest)
    | .error _ => takeIllegal (s.setCmd rest)

/-- s with the word whose table bits are w presented on CMD ahead of everything else, so that the next step performs it. -/
def State.withFetchWord (s : State) (nbits w : Nat) : State :=
  s.setCmd (.command (BitVec.ofNat 32 (w % 2 ^ nbits)) :: s.cmd)

end Sys2Proof.Machine
end

