-- ==== Sys2Proof/Machine/Assembler.lean ====
section
/-! DEFINITION. Assembler syntax and pseudo-instructions (spec/30_encoding.md R47, R48). Text is a list of characters. What
R47 leaves open (blanks, the case of hexadecimal digits, leading zeros) is log entry 16. -/

namespace Sys2Proof.Machine

/-- The pseudo-instructions (R48). -/
inductive Pseudo where
  | gfsub (a b : Byte)
  | rdst | rderr | rdkc | rdnp | rdres
deriving DecidableEq, Repr

/-- Each pseudo-instruction's fixed expansion (R48). -/
def Pseudo.expand : Pseudo → Instr
  | .gfsub a b => .gfadd a b
  | .rdst => .rdcr 0x00#8
  | .rderr => .rdcr 0x01#8
  | .rdkc => .rdcr 0x02#8
  | .rdnp => .rdcr 0x03#8
  | .rdres => .rdcr 0x04#8

/-- Everything before a comment's `;` (R47). -/
def dropComment (line : List Char) : List Char := line.takeWhile (· ≠ ';')

/-- A space or a tab. DESIGN CHOICE (log entry 16). Safe. -/
def isBlank (c : Char) : Bool := c.toNat = 32 ∨ c.toNat = 9

/-- The text without the blanks at both ends. -/
def trim (t : List Char) : List Char := ((t.dropWhile isBlank).reverse.dropWhile isBlank).reverse

/-- The digits of a number in a base, most significant first, onto what has been read. -/
def readDigits (base : Nat) : List Char → Nat → Option Nat
  | [], v => some v
  | c :: cs, v =>
    let d := if 48 ≤ c.toNat ∧ c.toNat ≤ 57 then c.toNat - 48
      else if 97 ≤ c.toNat ∧ c.toNat ≤ 102 then c.toNat - 87
      else if 65 ≤ c.toNat ∧ c.toNat ≤ 70 then c.toNat - 55
      else 16
    if d < base then readDigits base cs (v * base + d) else none

/-- A number in decimal, or in hexadecimal with the prefix 0x, in the range 0..255 (R47). -/
def readNumber (t : List Char) : Option Byte :=
  let v := match t with
    | [] => none
    | ['0', 'x'] => none
    | '0' :: 'x' :: digits => readDigits 16 digits 0
    | digits => readDigits 10 digits 0
  match v with
  | some n => if n ≤ 255 then some (BitVec.ofNat 8 n) else none
  | none => none

/-- The five names that may be written as RDCR's operand (R47). -/
def readRegister (t : List Char) : Option Byte :=
  if t = ['S', 'T', 'A', 'T', 'U', 'S'] then some 0x00#8
  else if t = ['E', 'R', 'R'] then some 0x01#8
  else if t = ['K', 'C'] then some 0x02#8
  else if t = ['N', 'P'] then some 0x03#8
  else if t = ['R', 'E', 'S'] then some 0x04#8
  else readNumber t

/-- The pieces between commas, each without the blanks at its ends. -/
def splitOperands (t : List Char) : List (List Char) :=
  if trim t = [] then [] else (t.splitOn ',').map trim

/-- A command or pseudo-instruction from its mnemonic and operands (R47, R48). -/
def assembleParts (mnemonic : List Char) (operands : List (List Char)) : Option Instr :=
  let z (i : Instr) := if operands = [] then some i else none
  let a (mk : Byte → Instr) := match operands with
    | [x] => (readNumber x).map mk
    | _ => none
  let ab (mk : Byte → Byte → Instr) := match operands with
    | [x, y] => (readNumber x).bind fun v => (readNumber y).map (mk v)
    | _ => none
  if mnemonic = ['N', 'O', 'P'] then z .nop
  else if mnemonic = ['R', 'D', 'C', 'R'] then
    match operands with
    | [x] => (readRegister x).map Instr.rdcr
    | _ => none
  else if mnemonic = ['G', 'F', 'A', 'D', 'D'] then ab .gfadd
  else if mnemonic = ['G', 'F', 'S', 'U', 'B'] then ab fun v w => (Pseudo.gfsub v w).expand
  else if mnemonic = ['G', 'F', 'M', 'U', 'L'] then ab .gfmul
  else if mnemonic = ['G', 'F', 'E', 'X', 'P'] then a .gfexp
  else if mnemonic = ['G', 'F', 'L', 'O', 'G'] then a .gflog
  else if mnemonic = ['C', 'C', 'L', 'R'] then z .cclr
  else if mnemonic = ['C', 'P', 'U', 'S', 'H'] then a .cpush
  else if mnemonic = ['P', 'E', 'V', 'A', 'L'] then a .peval
  else if mnemonic = ['S', 'P', 'L', 'I', 'T'] then a .split
  else if mnemonic = ['P', 'C', 'L', 'R'] then z .pclr
  else if mnemonic = ['P', 'P', 'U', 'S', 'H'] then ab .ppush
  else if mnemonic = ['L', 'A', 'G', 'R'] then z .lagr
  else if mnemonic = ['R', 'D', 'S', 'T'] then z Pseudo.rdst.expand
  else if mnemonic = ['R', 'D', 'E', 'R', 'R'] then z Pseudo.rderr.expand
  else if mnemonic = ['R', 'D', 'K', 'C'] then z Pseudo.rdkc.expand
  else if mnemonic = ['R', 'D', 'N', 'P'] then z Pseudo.rdnp.expand
  else if mnemonic = ['R', 'D', 'R', 'E', 'S'] then z Pseudo.rdres.expand
  else none

/-- One line of assembly text (R47): the word it assembles to, `some none` for a line with no command, none where the
text is not of R47's form. RDCR of a number above 4 assembles: the word is the block's to refuse (R42). -/
def assembleLine (line : List Char) : Option (Option CommandWord) :=
  let t := trim (dropComment line)
  if t = [] then some none
  else
    match assembleParts (t.takeWhile fun c => !isBlank c) (splitOperands (t.dropWhile fun c => !isBlank c)) with
    | some i => some (some (encode i))
    | none => none

end Sys2Proof.Machine
end

