-- ==== Sys2Proof/Machine/HostCodec.lean ====
section
/-! DEFINITION. The host's byte codec, share form and coefficient draw (spec/44_host_procedures.md R88 to R91, R93). These
bind the host that drives the block, not the block (R87). -/

namespace Sys2Proof.Machine

/-- The causes of the source's one error kind FormatError (R96). -/
inductive FormatError where
  /-- An odd number of hexadecimal characters (R88). -/
  | oddLength
  /-- A character that is no hexadecimal digit (R88). -/
  | nonHex
  /-- A share with no id byte, or with id byte 0x00 (R93: the host should treat it as malformed). DESIGN CHOICE, log entry 15. -/
  | malformedShare
  /-- Accepted payloads that differ in length (R93). -/
  | unequalPayloads
  /-- Fewer than two shares with distinct ids (R93). -/
  | tooFewShares
  /-- Empty payloads, in a host that takes R95's other outcome. -/
  | emptyPayload
deriving DecidableEq, Repr

/-- The value of one hexadecimal digit. Capitals count only where the host accepts them (R88; log entry 12). -/
def hexDigit (capitals : Bool) (c : Char) : Option (BitVec 4) :=
  if 48 ≤ c.toNat ∧ c.toNat ≤ 57 then some (BitVec.ofNat 4 (c.toNat - 48))
  else if 97 ≤ c.toNat ∧ c.toNat ≤ 102 then some (BitVec.ofNat 4 (c.toNat - 87))
  else if capitals ∧ 65 ≤ c.toNat ∧ c.toNat ≤ 70 then some (BitVec.ofNat 4 (c.toNat - 55))
  else none

/-- `hexToBytes` (R88). The first character of a pair is the high half of the byte (log entry 14). -/
def hexToBytes (capitals : Bool) : List Char → Except FormatError (List Byte)
  | [] => .ok []
  | [_] => .error .oddLength
  | c :: d :: rest =>
    match hexDigit capitals c, hexDigit capitals d with
    | some high, some low =>
      match hexToBytes capitals rest with
      | .ok bs => .ok ((high ++ low) :: bs)
      | .error e => .error e
    | _, _ => .error .nonHex

/-- The lowercase hexadecimal digit of a 4-bit value (R89). -/
def hexChar (v : BitVec 4) : Char :=
  if v.toNat < 10 then Char.ofNat (48 + v.toNat) else Char.ofNat (87 + v.toNat)

/-- `hex2`: two digits, the high half first (R89, R92). -/
def hexByte (v : Byte) : List Char := [hexChar (v.extractLsb' 4 4), hexChar (v.extractLsb' 0 4)]

/-- `bytesToHex`, total on bytes (R89). -/
def bytesToHex (bs : List Byte) : List Char := bs.flatMap hexByte

/-- A share: its id, the X coordinate, and its payload, one byte per secret byte (R90). -/
structure Share where
  id : Byte
  payload : List Byte
deriving DecidableEq, Repr

/-- The share's wire form: the id's two characters, then the payload's (R90). -/
def Share.wire (s : Share) : List Char := hexByte s.id ++ bytesToHex s.payload

/-- R93's parse of one share string. -/
def parseShare (capitals : Bool) (text : List Char) : Except FormatError Share :=
  match hexToBytes capitals text with
  | .ok [] => .error .malformedShare
  | .ok (id :: payload) => if id = 0#8 then .error .malformedShare else .ok ⟨id, payload⟩
  | .error e => .error e

/-- R93's parse of every share string, in order. -/
def parseShares (capitals : Bool) : List (List Char) → Except FormatError (List Share)
  | [] => .ok []
  | text :: rest =>
    match parseShare capitals text, parseShares capitals rest with
    | .ok s, .ok ss => .ok (s :: ss)
    | .error e, _ => .error e
    | .ok _, .error e => .error e

/-- R93: skip shares whose id duplicates one already accepted. -/
def acceptShares (accepted : List Share) : List Share → List Share
  | [] => accepted
  | s :: rest =>
    if s.id ∈ accepted.map Share.id then acceptShares accepted rest
    else acceptShares (accepted ++ [s]) rest

/-- R93: the accepted shares, at least two, all payloads of one length. -/
def readShares (capitals : Bool) (texts : List (List Char)) : Except FormatError (List Share) :=
  match parseShares capitals texts with
  | .error e => .error e
  | .ok shares =>
    match acceptShares [] shares with
    | s :: t :: rest =>
      if (t :: rest).all (fun u => u.payload.length = s.payload.length) then .ok (s :: t :: rest)
      else .error .unequalPayloads
    | _ => .error .tooFewShares

/-- R91: draw a byte, and while it is zero draw again, at most `redraws` times (RNG_RETRY_CAP): the nonzero byte and the rest
of the source, or none when the redraws or the listed source are used up. The random source is the list of bytes it will
yield (log entry 13). -/
def drawCoefficient : (redraws : Nat) → (source : List Byte) → Option (Byte × List Byte)
  | _, [] => none
  | 0, b :: source => if b = 0#8 then none else some (b, source)
  | redraws + 1, b :: source => if b = 0#8 then drawCoefficient redraws source else some (b, source)

/-- `count` fresh coefficients, one draw each (R91). -/
def drawCoefficients (redraws : Nat) : (count : Nat) → (source : List Byte) → Option (List Byte × List Byte)
  | 0, source => some ([], source)
  | count + 1, source =>
    match drawCoefficient redraws source with
    | none => none
    | some (c, source) =>
      match drawCoefficients redraws count source with
      | none => none
      | some (cs, source) => some (c :: cs, source)

end Sys2Proof.Machine
end

