-- ==== Sys2Proof/Machine/HostProcedures.lean ====
section
/-! DEFINITION. The host procedures GENERATE and COMBINE as command sequences over the block (spec/44_host_procedures.md
R87, R92, R94, R95), with the host's duties of spec/70_reset_and_hazards.md R110: CCLR and PCLR before each use and after
the last, responses paired with commands by counting. The order of byte positions is free (R92, R94;
spec/20_memory.md R29); DESIGN CHOICE: forward order (log entry 18). All coefficients are drawn before the first command:
DESIGN CHOICE (log entry 19). -/

namespace Sys2Proof.Machine

/-- Why a host procedure gives no result. -/
inductive HostError where
  /-- The source's FormatError (R96). -/
  | format (e : FormatError)
  /-- The host does not start: 1 ≤ K ≤ N ≤ 255 or the bound on the secret's length fails (R92). -/
  | precondition
  /-- The redraws of a zero byte reached RNG_RETRY_CAP, or the listed source ended (R91). -/
  | randomSource
  /-- The block answered a fault code, or the model stopped (R110 (h), (i)). DESIGN CHOICE, log entry 17. -/
  | block
deriving DecidableEq, Repr

/-- A command on CMD. -/
def issue (i : Instr) : HostAction := .command (encode i)

/-- GENERATE's commands for one byte position (R92): the secret byte first, then the random coefficients. -/
def splitActions (n secretByte : Byte) (coefficients : List Byte) : List HostAction :=
  issue .cclr :: issue (.cpush secretByte) :: coefficients.map (fun c => issue (.cpush c)) ++ [issue (.split n)]

/-- GENERATE's whole command sequence (R92), given each position's secret byte and coefficients, in the list's order
(log entry 18). -/
def generateActions (n : Byte) (positions : List (Byte × List Byte)) : List HostAction :=
  positions.flatMap (fun p => splitActions n p.1 p.2) ++ [issue .cclr]

/-- COMBINE's commands for one byte position (R94). -/
def combineActions (points : List (Byte × Byte)) : List HostAction :=
  issue .pclr :: points.map (fun p => issue (.ppush p.1 p.2)) ++ [issue .lagr]

/-- COMBINE's whole command sequence (R94), given each position's points, in the list's order (log entry 18). -/
def combineAllActions (positions : List (List (Byte × Byte))) : List HostAction :=
  positions.flatMap combineActions ++ [issue .pclr]

/-- `k` steps of the machine, stopping where the model stops. -/
def runSteps : Nat → State → Option State
  | 0, s => some s
  | k + 1, s =>
    match step s with
    | .next t => runSteps k t
    | .fault _ => none
    | .refused _ => none

/-- Perform the actions, and answer the state and the response words they caused, if all carry code OK (R43, R110 (h)). -/
def perform (actions : List HostAction) (s : State) : Option (State × List ResponseWord) :=
  match runSteps actions.length (s.setCmd actions) with
  | none => none
  | some t =>
    if (t.rsp.drop s.rsp.length).all (fun w => w.extractLsb' 8 8 = 0#8) then some (t, t.rsp.drop s.rsp.length)
    else none

/-- The data byte of a response word (R43). -/
def dataByte (w : ResponseWord) : Byte := w.extractLsb' 0 8

/-- R92, R110 (h): each position answers `lead` words and then `count` words whose data bytes are wanted. -/
def pickData (lead count : Nat) : (positions : Nat) → List ResponseWord → List (List Byte)
  | 0, _ => []
  | positions + 1, words =>
    ((words.drop lead).take count).map dataByte :: pickData lead count positions (words.drop (lead + count))

/-- Draw the coefficients 1..K-1 for every secret byte, in forward order (R91, R92; log entries 18 and 19). -/
def drawPositions (redraws k : Nat) : (secret : List Byte) → (source : List Byte) → Option (List (Byte × List Byte))
  | [], _ => some []
  | b :: secret, source =>
    match drawCoefficients redraws (k - 1) source with
    | none => none
    | some (cs, source) =>
      match drawPositions redraws k secret source with
      | none => none
      | some ps => some ((b, cs) :: ps)

/-- R92: share i's payload is the i-th data byte of every position; ids are 1..N. -/
def packShares (n : Nat) (rows : List (List Byte)) : List Share :=
  (List.range n).map fun i => ⟨BitVec.ofNat 8 (i + 1), rows.map (fun row => row.getD i 0)⟩

/-- GENERATE(secretHex, N, K) on the block in state s (R92), byte positions in forward order
(DESIGN CHOICE, log entry 18): the share strings and the block's state after. -/
def generate (p : Config.HostParams) (source : List Byte) (secretHex : List Char) (n k : Nat) (s : State) :
    Except HostError (List (List Char) × State) :=
  match hexToBytes p.acceptsCapitals secretHex with
  | .error e => .error (.format e)
  | .ok secret =>
    if 1 ≤ k ∧ k ≤ n ∧ n ≤ 255 ∧ secret.length ≤ p.maxSecretBytes then
      match drawPositions p.rngRetryCap k secret source with
      | none => .error .randomSource
      | some positions =>
        match perform (generateActions (BitVec.ofNat 8 n) positions) s with
        | none => .error .block
        | some (t, words) =>
          .ok ((packShares n (pickData (k + 1) n secret.length words)).map Share.wire, t)
    else .error .precondition

/-- The points of byte position `pos` of the accepted shares (R94). -/
def pointsAt (shares : List Share) (pos : Nat) : List (Byte × Byte) :=
  shares.map fun sh => (sh.id, sh.payload.getD pos 0)

/-- COMBINE(shareStrings) on the block in state s (R94, R95), byte positions in forward order (DESIGN CHOICE, log entry
18): the secret's hexadecimal text and the block's state after. -/
def combine (p : Config.HostParams) (texts : List (List Char)) (s : State) :
    Except HostError (List Char × State) :=
  match readShares p.acceptsCapitals texts with
  | .error e => .error (.format e)
  | .ok [] => .error (.format .tooFewShares)
  | .ok (sh :: rest) =>
    if sh.payload.length = 0 ∧ p.emptyPayloadFails then .error (.format .emptyPayload)
    else
      match perform (combineAllActions ((List.range sh.payload.length).map (pointsAt (sh :: rest)))) s with
      | none => .error .block
      | some (t, words) =>
        .ok (bytesToHex (pickData ((sh :: rest).length + 1) 1 sh.payload.length words).flatten, t)

end Sys2Proof.Machine
end

