-- ==== Sys2Proof/WellFormed.lean ====
section
/-! DEFINITION. Which commands are legal in form (spec/30_encoding.md R42). The layout leaves one check on a decoded
command: RDCR's register number (R41, R42 (e)). Checks on operand values and on state are not part of form (R46). -/

namespace Sys2Proof

/-- Legal in form: R42 (e) for RDCR, nothing for the other twelve. -/
def Instr.wellFormed : Instr → Bool
  | .rdcr number => number ≤ 0x04#8
  | .nop => true
  | .gfadd _ _ => true
  | .gfmul _ _ => true
  | .gfexp _ => true
  | .gflog _ => true
  | .cclr => true
  | .cpush _ => true
  | .peval _ => true
  | .split _ => true
  | .pclr => true
  | .ppush _ _ => true
  | .lagr => true

end Sys2Proof
end

