-- ==== Sys2Proof/Safety.lean ====
section
/-! DEFINITION. What a good state is, and the mathematics the claims compare the block with. -/

namespace Sys2Proof.Machine

/-- The tables hold what the construction leaves (spec/10_state.md R11, R12, R24). -/
abbrev State.TablesBuilt (s : State) : Prop :=
  s.exps = Tables.constructed.exps ∧ s.logs = Tables.constructed.logs

/-- Exactly COEF[0..KC-1] hold a value (R13, R17). -/
abbrev State.CoefHeld (s : State) : Prop := s.coef.HoldsBelow s.kc.toNat

/-- Exactly PX[0..NP-1] and PY[0..NP-1] hold a value (R14, R17). -/
abbrev State.PointsHeld (s : State) : Prop := s.px.HoldsBelow s.np.toNat ∧ s.py.HoldsBelow s.np.toNat

/-- The X coordinates held are nonzero and pairwise distinct (R15). -/
abbrev State.PointsDistinct (s : State) : Prop := (s.px.map Prod.snd).Nodup ∧ 0#8 ∉ s.px.map Prod.snd

/-- ERR holds a legal value, 0x00 to 0x07 (R19). -/
abbrev State.ErrLegal (s : State) : Prop := s.err ≤ 0x07#8

/-- The invariant of every reachable state. -/
abbrev State.Inv (s : State) : Prop :=
  s.TablesBuilt ∧ s.CoefHeld ∧ s.PointsHeld ∧ s.PointsDistinct ∧ s.ErrLegal

/-- EXPS[n] as the rules' text writes it, for n in 0..255 (R11). -/
def State.expOf (s : State) (n : Nat) : Byte := s.exps.toList.getD n 0

/-- LOGS[e] as the rules' text writes it, for e in 1..255 (R12). -/
def State.logOf (s : State) (e : Byte) : Byte := s.logs.toList.getD (e.toNat - 1) 0

/-- R75's loop over a list of points: each point with nonzero Y adds EXPS[product], where product starts at LOGS[Y] and
every point with another X makes it (product + LOGS[X_j] + 255 - LOGS[X_i ^ X_j]) mod 255. -/
def State.lagrangeLoop (s : State) (points : List (Byte × Byte)) : Byte :=
  points.foldl (fun sum p =>
    if p.2 = 0#8 then sum
    else sum ^^^ s.expOf ((points.filter fun q => q.1 ≠ p.1).foldl (fun product q =>
      (product + (s.logOf q.1).toNat + 255 - (s.logOf (p.1 ^^^ q.1)).toNat) % 255) (s.logOf p.2).toNat)) 0x00#8

/-- The carry-less product of two bytes, bit k of b contributing a shifted left by k (spec/40_field.md R55). -/
def carrylessProduct (a b : Byte) : Nat :=
  (List.range 8).foldl (fun acc k => if b.getLsbD k then acc ^^^ (a.toNat <<< k) else acc) 0

/-- Reduction of a polynomial of degree at most 14 by 0x11D, from the top bit down (R49, R55). -/
def reduce11D (v : Nat) : Byte :=
  BitVec.ofNat 8
    ((List.range 7).foldl (fun acc k => if acc.testBit (14 - k) then acc ^^^ (0x11D <<< (6 - k)) else acc) v)

/-- The power x^n by repeated field multiplication. -/
def State.gfPow (s : State) (x : Byte) : Nat → Byte
  | 0 => 0x01#8
  | n + 1 => s.gfMul (s.gfPow x n) x

/-- P(x) = COEF[0] + COEF[1]·x + ... + COEF[K-1]·x^(K-1), written out power by power (spec/41_split.md R63). -/
def State.polyValue (s : State) (coeffs : List Byte) (x : Byte) : Byte :=
  (Memory.ofBytes coeffs).foldl (fun acc c => gfAdd acc (s.gfMul c.2 (s.gfPow x c.1))) 0x00#8

/-- The inverse EXPS[(255 - LOGS[d]) mod 255] of a nonzero d (spec/42_combine.md R77). -/
def State.gfInv (s : State) (d : Byte) (h : d ≠ 0#8) : Byte := s.expMod (255 - (s.log d h).toNat)

/-- The factor X_j / (X_i ^ X_j), and 1 for j = i (R75). -/
def State.basisFactor (s : State) (xi xj : Byte) : Byte :=
  if h : gfAdd xi xj = 0#8 then 0x01#8 else s.gfMul xj (s.gfInv (gfAdd xi xj) h)

/-- The Lagrange formula at X = 0: the sum over i of Y_i · Π over j ≠ i of X_j / (X_i ^ X_j) (R75). -/
def State.lagrangeFormula (s : State) (points : List (Byte × Byte)) : Byte :=
  (points.map fun p =>
    (points.map fun q => s.basisFactor p.1 q.1).foldl s.gfMul p.2).foldl gfAdd 0x00#8

/-- The commands performed one after another, stopping where the model stops (spec/20_memory.md R33). -/
def execAll : List Instr → State → Result
  | [], s => .next s
  | i :: is, s =>
    match exec i s with
    | .next t => execAll is t
    | .fault f => .fault f
    | .refused r => .refused r

/-- How many response words a command that does not fault emits (spec/30_encoding.md R44). -/
def wordCount : Instr → Nat
  | .split count => count.toNat
  | _ => 1

/-- LOGS[1] <- v, for the claim that only GFLOG shows the choice of its value (spec/40_field.md R56). -/
def State.withLog1 (s : State) (v : Byte) : State := { s with logs := s.logs.set 0 v }

/-- Apply a change to the next state of an outcome. -/
def mapNext (f : State → State) : Result → Result
  | .next t => .next (f t)
  | .fault e => .fault e
  | .refused r => .refused r

/-- The coefficients held, COEF[0] first. -/
def State.coefficients (s : State) : List Byte := s.coef.map Prod.snd

/-- The X coordinates held, point 0 first. -/
def State.xs (s : State) : List Byte := s.px.map Prod.snd

/-- The points held, point 0 first. -/
def State.points (s : State) : List (Byte × Byte) := s.xs.zip (s.py.map Prod.snd)

/-- Horner's method on a list of coefficients, constant term first: from the highest degree down, times x and XOR
(spec/41_split.md R66). -/
def State.hornerValue (s : State) (coeffs : List Byte) (x : Byte) : Byte :=
  coeffs.foldr (fun c acc => s.gfMul acc x ^^^ c) 0x00#8

/-- Not performed in the fault state, and answered with the latched code (spec/60_exceptions.md R101). -/
abbrev LatchedInFault (i : Instr) : Prop :=
  ∀ s : State, s.err ≠ 0#8 → exec i s = .next { s with rsp := s.rsp ++ [s.err ++ 0x00#8] }

/-- Taking fault code c: ERR <- c and one word {c, 00}, nothing else (spec/60_exceptions.md R100). -/
abbrev Raises (i : Instr) (s : State) (c : Byte) : Prop :=
  exec i s = .next { s with err := c, rsp := s.rsp ++ [c ++ 0x00#8] }

/-- Computing r: RES <- r and one word {00, r}, nothing else (spec/10_state.md R16, spec/30_encoding.md R44). -/
abbrev Answers (i : Instr) (s : State) (r : Byte) : Prop :=
  exec i s = .next { s with res := r, rsp := s.rsp ++ [0x00#8 ++ r] }

/-- The word of a command is the given one, and a word with this opcode and a nonzero must-be-zero field is illegal:
format Z (spec/30_encoding.md R39, R42). -/
abbrev FormZ (op : Byte) (i : Instr) : Prop :=
  decode (wordOf op 0#8 0#8 0#8) = .ok i ∧
    ∀ a b z, a ≠ 0#8 ∨ b ≠ 0#8 ∨ z ≠ 0#8 → ∃ e, decode (wordOf op a b z) = .error e

/-- The same for format A. -/
abbrev FormA (op : Byte) (mk : Byte → Instr) : Prop :=
  ∀ a, decode (wordOf op a 0#8 0#8) = .ok (mk a) ∧
    ∀ b z, b ≠ 0#8 ∨ z ≠ 0#8 → ∃ e, decode (wordOf op a b z) = .error e

/-- The same for format AB. -/
abbrev FormAB (op : Byte) (mk : Byte → Byte → Instr) : Prop :=
  ∀ a b, decode (wordOf op a b 0#8) = .ok (mk a b) ∧ ∀ z, z ≠ 0#8 → ∃ e, decode (wordOf op a b z) = .error e

/-- The codes a command can raise beside ILLEGAL (spec/60_exceptions.md R98). -/
def raisable : Instr → List Byte
  | .gflog _ => [0x02#8]
  | .peval _ => [0x03#8, 0x04#8]
  | .split _ => [0x03#8, 0x04#8, 0x07#8]
  | .ppush _ _ => [0x03#8]
  | .cpush _ => [0x05#8]
  | .lagr => [0x06#8]
  | .nop => []
  | .rdcr _ => []
  | .gfadd _ _ => []
  | .gfmul _ _ => []
  | .gfexp _ => []
  | .cclr => []
  | .pclr => []

/-- EXPS as spec/10_state.md R25 lists it, index 0 first. -/
def expsListing : List Nat :=
  [0x01, 0x02, 0x04, 0x08, 0x10, 0x20, 0x40, 0x80, 0x1d, 0x3a, 0x74, 0xe8, 0xcd, 0x87, 0x13, 0x26] ++
  [0x4c, 0x98, 0x2d, 0x5a, 0xb4, 0x75, 0xea, 0xc9, 0x8f, 0x03, 0x06, 0x0c, 0x18, 0x30, 0x60, 0xc0] ++
  [0x9d, 0x27, 0x4e, 0x9c, 0x25, 0x4a, 0x94, 0x35, 0x6a, 0xd4, 0xb5, 0x77, 0xee, 0xc1, 0x9f, 0x23] ++
  [0x46, 0x8c, 0x05, 0x0a, 0x14, 0x28, 0x50, 0xa0, 0x5d, 0xba, 0x69, 0xd2, 0xb9, 0x6f, 0xde, 0xa1] ++
  [0x5f, 0xbe, 0x61, 0xc2, 0x99, 0x2f, 0x5e, 0xbc, 0x65, 0xca, 0x89, 0x0f, 0x1e, 0x3c, 0x78, 0xf0] ++
  [0xfd, 0xe7, 0xd3, 0xbb, 0x6b, 0xd6, 0xb1, 0x7f, 0xfe, 0xe1, 0xdf, 0xa3, 0x5b, 0xb6, 0x71, 0xe2] ++
  [0xd9, 0xaf, 0x43, 0x86, 0x11, 0x22, 0x44, 0x88, 0x0d, 0x1a, 0x34, 0x68, 0xd0, 0xbd, 0x67, 0xce] ++
  [0x81, 0x1f, 0x3e, 0x7c, 0xf8, 0xed, 0xc7, 0x93, 0x3b, 0x76, 0xec, 0xc5, 0x97, 0x33, 0x66, 0xcc] ++
  [0x85, 0x17, 0x2e, 0x5c, 0xb8, 0x6d, 0xda, 0xa9, 0x4f, 0x9e, 0x21, 0x42, 0x84, 0x15, 0x2a, 0x54] ++
  [0xa8, 0x4d, 0x9a, 0x29, 0x52, 0xa4, 0x55, 0xaa, 0x49, 0x92, 0x39, 0x72, 0xe4, 0xd5, 0xb7, 0x73] ++
  [0xe6, 0xd1, 0xbf, 0x63, 0xc6, 0x91, 0x3f, 0x7e, 0xfc, 0xe5, 0xd7, 0xb3, 0x7b, 0xf6, 0xf1, 0xff] ++
  [0xe3, 0xdb, 0xab, 0x4b, 0x96, 0x31, 0x62, 0xc4, 0x95, 0x37, 0x6e, 0xdc, 0xa5, 0x57, 0xae, 0x41] ++
  [0x82, 0x19, 0x32, 0x64, 0xc8, 0x8d, 0x07, 0x0e, 0x1c, 0x38, 0x70, 0xe0, 0xdd, 0xa7, 0x53, 0xa6] ++
  [0x51, 0xa2, 0x59, 0xb2, 0x79, 0xf2, 0xf9, 0xef, 0xc3, 0x9b, 0x2b, 0x56, 0xac, 0x45, 0x8a, 0x09] ++
  [0x12, 0x24, 0x48, 0x90, 0x3d, 0x7a, 0xf4, 0xf5, 0xf7, 0xf3, 0xfb, 0xeb, 0xcb, 0x8b, 0x0b, 0x16] ++
  [0x2c, 0x58, 0xb0, 0x7d, 0xfa, 0xe9, 0xcf, 0x83, 0x1b, 0x36, 0x6c, 0xd8, 0xad, 0x47, 0x8e, 0x01]

/-- LOGS as R25 lists it, index 1 first. -/
def logsListing : List Nat :=
  [0xff, 0x01, 0x19, 0x02, 0x32, 0x1a, 0xc6, 0x03, 0xdf, 0x33, 0xee, 0x1b, 0x68, 0xc7, 0x4b, 0x04] ++
  [0x64, 0xe0, 0x0e, 0x34, 0x8d, 0xef, 0x81, 0x1c, 0xc1, 0x69, 0xf8, 0xc8, 0x08, 0x4c, 0x71, 0x05] ++
  [0x8a, 0x65, 0x2f, 0xe1, 0x24, 0x0f, 0x21, 0x35, 0x93, 0x8e, 0xda, 0xf0, 0x12, 0x82, 0x45, 0x1d] ++
  [0xb5, 0xc2, 0x7d, 0x6a, 0x27, 0xf9, 0xb9, 0xc9, 0x9a, 0x09, 0x78, 0x4d, 0xe4, 0x72, 0xa6, 0x06] ++
  [0xbf, 0x8b, 0x62, 0x66, 0xdd, 0x30, 0xfd, 0xe2, 0x98, 0x25, 0xb3, 0x10, 0x91, 0x22, 0x88, 0x36] ++
  [0xd0, 0x94, 0xce, 0x8f, 0x96, 0xdb, 0xbd, 0xf1, 0xd2, 0x13, 0x5c, 0x83, 0x38, 0x46, 0x40, 0x1e] ++
  [0x42, 0xb6, 0xa3, 0xc3, 0x48, 0x7e, 0x6e, 0x6b, 0x3a, 0x28, 0x54, 0xfa, 0x85, 0xba, 0x3d, 0xca] ++
  [0x5e, 0x9b, 0x9f, 0x0a, 0x15, 0x79, 0x2b, 0x4e, 0xd4, 0xe5, 0xac, 0x73, 0xf3, 0xa7, 0x57, 0x07] ++
  [0x70, 0xc0, 0xf7, 0x8c, 0x80, 0x63, 0x0d, 0x67, 0x4a, 0xde, 0xed, 0x31, 0xc5, 0xfe, 0x18, 0xe3] ++
  [0xa5, 0x99, 0x77, 0x26, 0xb8, 0xb4, 0x7c, 0x11, 0x44, 0x92, 0xd9, 0x23, 0x20, 0x89, 0x2e, 0x37] ++
  [0x3f, 0xd1, 0x5b, 0x95, 0xbc, 0xcf, 0xcd, 0x90, 0x87, 0x97, 0xb2, 0xdc, 0xfc, 0xbe, 0x61, 0xf2] ++
  [0x56, 0xd3, 0xab, 0x14, 0x2a, 0x5d, 0x9e, 0x84, 0x3c, 0x39, 0x53, 0x47, 0x6d, 0x41, 0xa2, 0x1f] ++
  [0x2d, 0x43, 0xd8, 0xb7, 0x7b, 0xa4, 0x76, 0xc4, 0x17, 0x49, 0xec, 0x7f, 0x0c, 0x6f, 0xf6, 0x6c] ++
  [0xa1, 0x3b, 0x52, 0x29, 0x9d, 0x55, 0xaa, 0xfb, 0x60, 0x86, 0xb1, 0xbb, 0xcc, 0x3e, 0x5a, 0xcb] ++
  [0x59, 0x5f, 0xb0, 0x9c, 0xa9, 0xa0, 0x51, 0x0b, 0xf5, 0x16, 0xeb, 0x7a, 0x75, 0x2c, 0xd7, 0x4f] ++
  [0xae, 0xd5, 0xe9, 0xe6, 0xe7, 0xad, 0xe8, 0x74, 0xd6, 0xf4, 0xea, 0xa8, 0x50, 0x58, 0xaf]

end Sys2Proof.Machine
end

