-- ==== Sys2Proof/Certificates/Slice0/Obligations.lean ====
section
/-! DEFINITION. The statements for the provers, from the numbered rules of spec/. Each docstring names the rule. -/

open Sys2Proof Sys2Proof.Machine

/-! ### Reset and the tables -/

/-- Every register and array after reset (R24), LOGS[0] without a value. The table contents are the listing R25, which the
spec marks as its own computation from R49. -/
def Obligations.ResetLeavesListedValues : Prop :=
  State.reset.exps.toList.map BitVec.toNat = expsListing ∧
  State.reset.logs.toList.map BitVec.toNat = logsListing ∧
  State.reset.logAt 0#8 = .error (.noValue .logs 0) ∧
  State.reset.kc = 0x00#8 ∧ (∀ j, State.reset.coef.read j = none) ∧
  State.reset.np = 0x00#8 ∧ (∀ i, State.reset.px.read i = none ∧ State.reset.py.read i = none) ∧
  State.reset.res = 0x00#8 ∧ State.reset.status = 0x00#8 ∧ State.reset.dup = false ∧ State.reset.flt = false ∧
  State.reset.err = 0x00#8

/-- Facts the spec infers from running R49 (R50 (b) to (e), marked as its own inference): EXPS[0..254] are 255 different
nonzero bytes, EXPS[255] = EXPS[0] = 1, LOGS[1] = 255, no other logarithm is 0 or 255, the tables are inverse to each other. -/
def Obligations.TablesAreInverse : Prop :=
  ((List.range 255).map fun i => State.reset.expAt (BitVec.ofNat 8 i)).Nodup ∧
  (∀ i, State.reset.expAt i ≠ 0#8) ∧
  State.reset.expAt 0xFF#8 = 0x01#8 ∧ State.reset.expAt 0x00#8 = 0x01#8 ∧
  State.reset.log 0x01#8 (by simp) = 0xFF#8 ∧
  (∀ e (h : e ≠ 0#8), State.reset.log e h ≠ 0#8 ∧ (e ≠ 1#8 → State.reset.log e h ≠ 0xFF#8)) ∧
  (∀ e (h : e ≠ 0#8), State.reset.expAt (State.reset.log e h) = e) ∧
  (∀ i, i ≠ 0#8 → ∃ h : State.reset.expAt i ≠ 0#8, State.reset.log (State.reset.expAt i) h = i)

/-- The invariant holds after reset (R24). Its point clause is R15, an inference the spec marks as its own. -/
def Obligations.InvHoldsAtReset : Prop := State.reset.Inv

/-! ### Encoding -/

/-- R38: the word is op·2^24 + a·2^16 + b·2^8 + z, its four fields are read back, and z must be zero in every command. -/
def Obligations.WordIsItsFields : Prop :=
  ∀ op a b z : Byte,
    (wordOf op a b z).toNat = op.toNat * 2 ^ 24 + a.toNat * 2 ^ 16 + b.toNat * 2 ^ 8 + z.toNat ∧
    fieldsOf (wordOf op a b z) = ⟨op, a, b, z⟩ ∧
    (z ≠ 0#8 → ∃ e, decode (wordOf op a b z) = .error e)

/-- Decode of encode is the identity on every well-formed command, every operand at every value (R38, R41, R46). -/
def Obligations.DecodeOfEncode : Prop :=
  ∀ i : Instr, i.wellFormed = true → decode (encode i) = .ok i

/-- A word that decodes is the encoding of the well-formed command it decodes to (R42, R46). -/
def Obligations.OnlyEncodingsDecode : Prop :=
  ∀ (w : CommandWord) (i : Instr), decode w = .ok i → i.wellFormed = true ∧ encode i = w

/-- R42 (a) to (e): exactly when a word is illegal. -/
def Obligations.IllegalExactlyWhen : Prop :=
  ∀ op a b z : Byte,
    (∃ e, decode (wordOf op a b z) = .error e) ↔
      (op ∉ [0x00#8, 0x01#8, 0x10#8, 0x11#8, 0x12#8, 0x13#8, 0x20#8, 0x21#8, 0x22#8, 0x23#8, 0x30#8, 0x31#8, 0x32#8] ∨
       z ≠ 0#8 ∨
       (op ∈ [0x00#8, 0x20#8, 0x30#8, 0x32#8] ∧ (a ≠ 0#8 ∨ b ≠ 0#8)) ∨
       (op ∈ [0x01#8, 0x12#8, 0x13#8, 0x21#8, 0x22#8, 0x23#8] ∧ b ≠ 0#8) ∨
       (op = 0x01#8 ∧ a > 0x04#8))

/-- R41: the rows are pairwise disjoint, a word decodes exactly when a row selects it, and to that row's command. -/
def Obligations.OpcodeRowsSelectCommands : Prop :=
  (∀ w : CommandWord, ∀ r ∈ opcodeRows, ∀ r' ∈ opcodeRows,
    w &&& r.mask = r.pattern → w &&& r'.mask = r'.pattern → r = r') ∧
  (∀ w : CommandWord, (∃ i, decode w = .ok i) ↔ ∃ r ∈ opcodeRows, rowSelects w r = true) ∧
  (∀ (w : CommandWord) (i : Instr), decode w = .ok i →
    ∃ r ∈ opcodeRows, rowSelects w r = true ∧ r.mnemonic = i.mnemonic)

/-- R42: of the 2^32 words, 197,897 are legal. -/
def Obligations.LegalWordCount : Prop :=
  Nat.card (Subtype fun w : CommandWord => ∃ i, decode w = .ok i) = 197897

/-- Words of spec/95_test_vectors.md E1 and E2 decode to the commands they stand for. -/
def Obligations.ListedWordsDecode : Prop :=
  decode 0x00000000 = .ok .nop ∧ decode 0x01040000 = .ok (.rdcr 4) ∧
  decode 0x10578300 = .ok (.gfadd 0x57#8 0x83#8) ∧ decode 0x11030300 = .ok (.gfmul 3 3) ∧
  decode 0x12190000 = .ok (.gfexp 25) ∧ decode 0x131d0000 = .ok (.gflog 0x1D#8) ∧
  decode 0x20000000 = .ok .cclr ∧ decode 0x21de0000 = .ok (.cpush 0xDE#8) ∧
  decode 0x22020000 = .ok (.peval 2) ∧ decode 0x23ff0000 = .ok (.split 255) ∧
  decode 0x30000000 = .ok .pclr ∧ decode 0x31025800 = .ok (.ppush 0x02#8 0x58#8) ∧
  decode 0x32000000 = .ok .lagr

/-- R48: the fixed expansion of each pseudo-instruction. -/
def Obligations.PseudoInstructionExpansions : Prop :=
  (∀ a b, (Pseudo.gfsub a b).expand = .gfadd a b) ∧
  Pseudo.rdst.expand = .rdcr 0x00#8 ∧ Pseudo.rderr.expand = .rdcr 0x01#8 ∧ Pseudo.rdkc.expand = .rdcr 0x02#8 ∧
  Pseudo.rdnp.expand = .rdcr 0x03#8 ∧ Pseudo.rdres.expand = .rdcr 0x04#8

/-- Lines of spec/95_test_vectors.md E1 assemble to their words; comments and register names are read (R47, R48). How blanks are
read is the model's choice (log entry 16). -/
def Obligations.ListedLinesAssemble : Prop :=
  assembleLine "RDCR RES".toList = some (some 0x01040000) ∧
  assembleLine "GFADD 0x57, 0x83".toList = some (some 0x10578300) ∧
  assembleLine "GFSUB 0x57, 0x83 ; the same word".toList = some (some 0x10578300) ∧
  assembleLine "GFEXP 25".toList = some (some 0x12190000) ∧
  assembleLine "SPLIT 255".toList = some (some 0x23ff0000) ∧
  assembleLine "SPLIT 256".toList = none ∧
  assembleLine "LAGR".toList = some (some 0x32000000) ∧
  assembleLine "; nothing".toList = some none

/-! ### The step -/

/-- A command word at the head of CMD that decodes is performed, in the state with that word taken off (R5, R37). CMD as a field
of State is the model's choice (log entry 1). -/
def Obligations.StepPerformsDecodedCommand : Prop :=
  ∀ (s : State) (w : CommandWord) (rest : List HostAction) (i : Instr),
    s.cmd = .command w :: rest → decode w = .ok i → step s = exec i { s with cmd := rest }

/-- R42: an illegal word raises ILLEGAL and reads and writes nothing else. What exec answers for an RDCR that is not
well-formed, which no word decodes to, is the model's (log entry 7, DEDUCED): what its word is answered with. -/
def Obligations.IllegalWordRaisesIllegal : Prop :=
  (∀ (s : State) (w : CommandWord) (rest : List HostAction) (e : Illegal),
    s.cmd = .command w :: rest → decode w = .error e → s.err = 0#8 →
      step s = .next { s with cmd := rest, err := 0x01#8, rsp := s.rsp ++ [0x0100#16] }) ∧
  ∀ n : Byte, n > 0x04#8 →
    (∀ s : State, s.err = 0#8 → Raises (.rdcr n) s 0x01#8) ∧ LatchedInFault (.rdcr n)

/-- R106, R107: a reset puts every piece of state at its reset value, from any state and out of the fault state, emits no
word, and keeps the words already emitted. CMD and RSP as fields of State are the model's choice (log entry 1). -/
def Obligations.ResetActionRestoresResetState : Prop :=
  ∀ (s : State) (rest : List HostAction),
    s.cmd = .reset :: rest → step s = .next { State.reset with cmd := rest, rsp := s.rsp }

/-- With nothing presented the machine waits: the model's choice (log entry 5). -/
def Obligations.WaitsForTheHost : Prop :=
  ∀ s : State, s.cmd = [] → step s = .next s

/-- Every step keeps the invariant: tables R11, R12, elements with a value R17, ERR R19, and the point clause R15, which the spec
marks as its own inference from R74 and R24. -/
def Obligations.StepKeepsInv : Prop :=
  ∀ s t : State, s.Inv → step s = .next t → t.Inv

/-- Every step keeps the byte spaces in canonical form, whatever else the state holds. That COEF, PX and PY are lists of cells
with rising indices is the model's choice (log entry 3), for the spaces of R26 and the elements without a value of R17. -/
def Obligations.StepKeepsCanonicalForm : Prop :=
  ∀ s t : State, s.coef.wf = true → s.px.wf = true → s.py.wf = true → step s = .next t →
    t.coef.wf = true ∧ t.px.wf = true ∧ t.py.wf = true

/-- From a good state every step answers a next state: no read of an element without a value (an inference R17 marks as the
spec's own), no overflow of the point buffer (R15, likewise). -/
def Obligations.GoodStateNeverStops : Prop :=
  ∀ s : State, s.Inv → ∃ t, step s = .next t

/-- After a reset, whatever the host presents, every state reached is good and no step stops: R15's point invariant, an inference
the spec marks as its own, and R17. -/
def Obligations.EveryRunStaysGood : Prop :=
  ∀ (actions : List HostAction) (k : Nat),
    ∃ t, runSteps k (State.reset.setCmd actions) = some t ∧ t.Inv

/-- R37, R33: a step appends to the response stream and never changes what was emitted. -/
def Obligations.ResponseStreamOnlyGrows : Prop :=
  ∀ s t : State, step s = .next t → s.rsp <+: t.rsp

/-- R44: one response word per command, N for a SPLIT N that does not fault. -/
def Obligations.ResponseWordCount : Prop :=
  ∀ (i : Instr) (s t : State), exec i s = .next t →
    ∃ words, t.rsp = s.rsp ++ words ∧ words.length = if t.err = 0#8 then wordCount i else 1

/-! ### System commands -/

/-- R83. -/
def Obligations.NopChangesNothing : Prop :=
  FormZ 0x00#8 .nop ∧ LatchedInFault .nop ∧
  ∀ s : State, s.err = 0#8 → exec .nop s = .next { s with rsp := s.rsp ++ [0x0000#16] }

/-- R84: RDCR answers the register, in the fault state too, and writes nothing. A word of RDCR's opcode with a number above
0x04 or a nonzero b or z raises ILLEGAL, or in the fault state is answered with the latched code. -/
def Obligations.RdcrReadsControlRegisters : Prop :=
  (∀ s : State,
    exec (.rdcr 0x00#8) s = .next { s with rsp := s.rsp ++
      [0x00#8 ++ BitVec.ofNat 8 ((if s.dup then 1 else 0) + 2 * (if s.err ≠ 0#8 then 1 else 0))] } ∧
    exec (.rdcr 0x01#8) s = .next { s with rsp := s.rsp ++ [0x00#8 ++ s.err] } ∧
    exec (.rdcr 0x02#8) s = .next { s with rsp := s.rsp ++ [0x00#8 ++ s.kc] } ∧
    exec (.rdcr 0x03#8) s = .next { s with rsp := s.rsp ++ [0x00#8 ++ s.np] } ∧
    exec (.rdcr 0x04#8) s = .next { s with rsp := s.rsp ++ [0x00#8 ++ s.res] }) ∧
  (∀ n : Byte, n ≤ 0x04#8 → decode (wordOf 0x01#8 n 0#8 0#8) = .ok (.rdcr n)) ∧
  ∀ (s : State) (n b z : Byte) (rest : List HostAction),
    s.cmd = .command (wordOf 0x01#8 n b z) :: rest → n > 0x04#8 ∨ b ≠ 0#8 ∨ z ≠ 0#8 →
      (s.err = 0#8 → step s = .next { s with cmd := rest, err := 0x01#8, rsp := s.rsp ++ [0x0100#16] }) ∧
      (s.err ≠ 0#8 → step s = .next { s with cmd := rest, rsp := s.rsp ++ [s.err ++ 0x00#8] })

/-- R18: bit 0 of STATUS is DUP, bit 1 is ERR ≠ 0, bits 7:2 read as 0. -/
def Obligations.StatusBits : Prop :=
  ∀ s : State, s.status.getLsbD 0 = s.dup ∧ s.status.getLsbD 1 = decide (s.err ≠ 0#8) ∧
    ∀ k, 2 ≤ k → s.status.getLsbD k = false

/-! ### Field arithmetic -/

/-- R57. -/
def Obligations.GfaddIsExclusiveOr : Prop :=
  FormAB 0x10#8 .gfadd ∧
  ∀ a b : Byte, LatchedInFault (.gfadd a b) ∧
    ∀ s : State, s.err = 0#8 → Answers (.gfadd a b) s (a ^^^ b)

/-- R58: zero if an operand is zero, else EXPS[(LOGS[a] + LOGS[b]) mod 255]; with the tables built, the rule's corner cases. -/
def Obligations.GfmulByLogarithms : Prop :=
  FormAB 0x11#8 .gfmul ∧
  (∀ a b : Byte, LatchedInFault (.gfmul a b) ∧
    ∀ s : State, s.err = 0#8 →
      (a = 0#8 ∨ b = 0#8 → Answers (.gfmul a b) s 0x00#8) ∧
      (a ≠ 0#8 → b ≠ 0#8 →
        Answers (.gfmul a b) s (s.expOf (((s.logOf a).toNat + (s.logOf b).toNat) % 255)))) ∧
  ∀ s : State, s.TablesBuilt → s.err = 0#8 →
    (∀ b : Byte, Answers (.gfmul 0x01#8 b) s b) ∧ Answers (.gfmul 0x02#8 0x80#8) s 0x1D#8 ∧
    Answers (.gfmul 0x02#8 0x8E#8) s 0x01#8 ∧ Answers (.gfmul 0xFF#8 0xFF#8) s 0xE2#8 ∧
    Answers (.gfmul 0x03#8 0x03#8) s 0x05#8

/-- R59: EXPS[a]; with the tables built, EXPS[a mod 255], never 0x00, and the rule's corner cases. -/
def Obligations.GfexpReadsExps : Prop :=
  FormA 0x12#8 .gfexp ∧
  (∀ a : Byte, LatchedInFault (.gfexp a) ∧
    ∀ s : State, s.err = 0#8 → Answers (.gfexp a) s (s.expOf a.toNat)) ∧
  ∀ s : State, s.TablesBuilt →
    (∀ a : Byte, s.expOf a.toNat = s.expOf (a.toNat % 255) ∧ s.expOf a.toNat ≠ 0#8) ∧
    s.expOf 0 = 0x01#8 ∧ s.expOf 255 = 0x01#8 ∧ s.expOf 8 = 0x1D#8 ∧ s.expOf 0x19 = 0x03#8

/-- R60: LOG0 on 0x00, else LOGS[a]; with the tables built, never 0x00, undone by EXPS, and the rule's corner cases. -/
def Obligations.GflogReadsLogs : Prop :=
  FormA 0x13#8 .gflog ∧
  (∀ a : Byte, LatchedInFault (.gflog a) ∧
    ∀ s : State, s.err = 0#8 →
      (a = 0#8 → Raises (.gflog a) s 0x02#8) ∧
      (a ≠ 0#8 → Answers (.gflog a) s (s.logOf a))) ∧
  ∀ s : State, s.TablesBuilt →
    (∀ a : Byte, a ≠ 0#8 → s.logOf a ≠ 0#8 ∧ s.expOf (s.logOf a).toNat = a) ∧
    s.logOf 0x01#8 = 0xFF#8 ∧ s.logOf 0x02#8 = 0x01#8 ∧ s.logOf 0x1D#8 = 0x08#8

/-- With the tables built, GFMUL is the carry-less product reduced by 0x11D: an inference R55 marks as the spec's own. -/
def Obligations.GfmulIsReducedCarrylessProduct : Prop :=
  ∀ s : State, s.TablesBuilt → ∀ a b : Byte, s.gfMul a b = reduce11D (carrylessProduct a b)

/-- The laws of the field: exact results at zero and one (R55), and the laws that R55 marks as the spec's own inference from
R53 and R54. -/
def Obligations.FieldLaws : Prop :=
  (∀ a b c : Byte,
    gfAdd a b = gfAdd b a ∧ gfAdd (gfAdd a b) c = gfAdd a (gfAdd b c) ∧ gfAdd a 0x00#8 = a ∧ gfAdd a a = 0x00#8) ∧
  ∀ s : State, s.TablesBuilt → ∀ a b c : Byte,
    s.gfMul a b = s.gfMul b a ∧
    s.gfMul (s.gfMul a b) c = s.gfMul a (s.gfMul b c) ∧
    s.gfMul a (gfAdd b c) = gfAdd (s.gfMul a b) (s.gfMul a c) ∧
    s.gfMul a 0x01#8 = a ∧ s.gfMul a 0x00#8 = 0x00#8 ∧
    (s.gfMul a b = 0#8 → a = 0#8 ∨ b = 0#8) ∧
    ∀ h : a ≠ 0#8, s.gfMul a (s.gfInv a h) = 0x01#8

/-- No result of any command but GFLOG 1 depends on whether LOGS[1] is 255 or 0: R56, an inference the spec marks as its own. -/
def Obligations.OnlyGflogShowsLog1 : Prop :=
  ∀ (i : Instr) (s : State), i ≠ .gflog 0x01#8 →
    exec i (s.withLog1 0x00#8) = mapNext (fun t => t.withLog1 0x00#8) (exec i (s.withLog1 0xFF#8))

/-! ### Split side -/

/-- R64: KC is 0 and no element of COEF holds a value. -/
def Obligations.CclrEmptiesCoefficients : Prop :=
  FormZ 0x20#8 .cclr ∧ LatchedInFault .cclr ∧
  ∀ s : State, s.err = 0#8 → ∃ t, exec .cclr s = .next t ∧ (∀ j, t.coef.read j = none) ∧
    t = { s with coef := t.coef, kc := 0x00#8, rsp := s.rsp ++ [0x0000#16] }

/-- R65: COEF[KC] is a, every other element is as before, KC is one more; FULL at KC = 255. -/
def Obligations.CpushAppendsCoefficient : Prop :=
  FormA 0x21#8 .cpush ∧
  ∀ a : Byte, LatchedInFault (.cpush a) ∧
    ∀ s : State, s.err = 0#8 →
      (s.kc = 0xFF#8 → Raises (.cpush a) s 0x05#8) ∧
      (s.kc ≠ 0xFF#8 → ∃ t, exec (.cpush a) s = .next t ∧
        t.coef.read s.kc.toNat = some a ∧ (∀ j, j ≠ s.kc.toNat → t.coef.read j = s.coef.read j) ∧
        t.kc.toNat = s.kc.toNat + 1 ∧
        t = { s with coef := t.coef, kc := t.kc, rsp := s.rsp ++ [0x0000#16] })

/-- R68: RANGE, then EMPTY, then the value by Horner's method over the coefficients held; with the tables built, X = 1 gives
the exclusive-or of the coefficients. -/
def Obligations.PevalEvaluatesPolynomial : Prop :=
  FormA 0x22#8 .peval ∧
  (∀ x : Byte, LatchedInFault (.peval x) ∧
    ∀ s : State, s.err = 0#8 →
      (x = 0#8 → Raises (.peval x) s 0x03#8) ∧
      (x ≠ 0#8 → s.kc = 0#8 → Raises (.peval x) s 0x04#8) ∧
      (x ≠ 0#8 → s.kc ≠ 0#8 → s.CoefHeld → Answers (.peval x) s (s.hornerValue s.coefficients x))) ∧
  ∀ s : State, s.TablesBuilt → ∀ coeffs : List Byte,
    s.hornerValue coeffs 0x01#8 = coeffs.foldl (· ^^^ ·) 0x00#8

/-- R69: RANGE, EMPTY, KN in this order, then Y(1), ..., Y(N), one word each, and RES = Y(N). -/
def Obligations.SplitEmitsAllShares : Prop :=
  FormA 0x23#8 .split ∧
  ∀ n : Byte, LatchedInFault (.split n) ∧
    ∀ s : State, s.err = 0#8 →
      (n = 0#8 → Raises (.split n) s 0x03#8) ∧
      (n ≠ 0#8 → s.kc = 0#8 → Raises (.split n) s 0x04#8) ∧
      (n ≠ 0#8 → s.kc ≠ 0#8 → s.kc > n → Raises (.split n) s 0x07#8) ∧
      (n ≠ 0#8 → s.kc ≠ 0#8 → s.kc ≤ n → s.CoefHeld →
        exec (.split n) s = .next { s with
          res := s.hornerValue s.coefficients n
          rsp := s.rsp ++ (List.range n.toNat).map fun k =>
            (0x00#8 ++ s.hornerValue s.coefficients (BitVec.ofNat 8 (k + 1)) : ResponseWord) })

/-- SPLIT N does exactly what PEVAL 1, ..., PEVAL N do one after another: the sentence of R69 marked as the spec's own
inference from R68 and R69. -/
def Obligations.SplitIsPevalSequence : Prop :=
  ∀ (s : State) (n : Byte), s.err = 0#8 → n ≠ 0#8 → s.kc ≠ 0#8 → s.kc ≤ n → s.CoefHeld →
    exec (.split n) s = execAll ((List.range n.toNat).map fun k => .peval (BitVec.ofNat 8 (k + 1))) s

/-- With one coefficient every evaluation returns it: R70, an inference the spec marks as its own. -/
def Obligations.OneCoefficientIsConstant : Prop :=
  ∀ (s : State) (c : Byte), s.err = 0#8 → s.kc = 1#8 → s.coef = Memory.ofBytes [c] →
    (∀ x, x ≠ 0#8 → Answers (.peval x) s c) ∧
    (∀ n, n ≠ 0#8 → exec (.split n) s = .next { s with
      res := c, rsp := s.rsp ++ List.replicate n.toNat (0x00#8 ++ c : ResponseWord) })

/-- With the tables built, Horner's method (R66) gives P(x) of R63 written out power by power: the spec's own inference. -/
def Obligations.HornerIsPolynomialValue : Prop :=
  ∀ s : State, s.TablesBuilt → ∀ (coeffs : List Byte) (x : Byte), s.hornerValue coeffs x = s.polyValue coeffs x

/-! ### Combine side -/

/-- R73. -/
def Obligations.PclrEmptiesPoints : Prop :=
  FormZ 0x30#8 .pclr ∧ LatchedInFault .pclr ∧
  ∀ s : State, s.err = 0#8 → ∃ t, exec .pclr s = .next t ∧
    (∀ i, t.px.read i = none ∧ t.py.read i = none) ∧
    t = { s with px := t.px, py := t.py, np := 0x00#8, dup := false, rsp := s.rsp ++ [0x0000#16] }

/-- R74: RANGE on X = 0; a held X is ignored with data 01 and DUP; a new X is stored at index NP. -/
def Obligations.PpushStoresNewPoint : Prop :=
  FormAB 0x31#8 .ppush ∧
  ∀ x y : Byte, LatchedInFault (.ppush x y) ∧
    ∀ s : State, s.err = 0#8 →
      (x = 0#8 → Raises (.ppush x y) s 0x03#8) ∧
      (x ≠ 0#8 → s.PointsHeld → x ∈ s.xs →
        exec (.ppush x y) s = .next { s with dup := true, rsp := s.rsp ++ [0x0001#16] }) ∧
      (x ≠ 0#8 → s.PointsHeld → s.PointsDistinct → x ∉ s.xs → ∃ t, exec (.ppush x y) s = .next t ∧
        t.px.read s.np.toNat = some x ∧ t.py.read s.np.toNat = some y ∧
        (∀ i, i ≠ s.np.toNat → t.px.read i = s.px.read i ∧ t.py.read i = s.py.read i) ∧
        t.np.toNat = s.np.toNat + 1 ∧
        t = { s with px := t.px, py := t.py, np := t.np, rsp := s.rsp ++ [0x0000#16] })

/-- R79: FEW with fewer than two points, else the value of R75's loop over the points held. -/
def Obligations.LagrFollowsTheLoop : Prop :=
  FormZ 0x32#8 .lagr ∧ LatchedInFault .lagr ∧
  ∀ s : State, s.err = 0#8 →
    (s.np < 2#8 → Raises .lagr s 0x06#8) ∧
    (s.np ≥ 2#8 → s.PointsHeld → s.PointsDistinct → Answers .lagr s (s.lagrangeLoop s.points))

/-- In field terms the loop is the Lagrange formula Σ Y_i · Π X_j / (X_i ^ X_j) (the sentence of R75 marked as general
knowledge), with the tables built and two or more points of nonzero, pairwise distinct X. -/
def Obligations.LoopIsLagrangeFormula : Prop :=
  ∀ s : State, s.TablesBuilt → ∀ points : List (Byte × Byte),
    2 ≤ points.length → (points.map Prod.fst).Nodup → 0#8 ∉ points.map Prod.fst →
      s.lagrangeLoop points = s.lagrangeFormula points

/-- The result does not depend on the order in which the points were pushed: R81, an inference the spec marks as its own. -/
def Obligations.LagrIgnoresPointOrder : Prop :=
  ∀ s t : State, s.err = 0#8 → t.err = 0#8 → s.exps = t.exps → s.logs = t.logs → s.np ≥ 2#8 → t.np ≥ 2#8 →
    s.PointsHeld → s.PointsDistinct → t.PointsHeld → t.PointsDistinct → s.points.Perm t.points →
      ∃ r, Answers .lagr s r ∧ Answers .lagr t r

/-- When the points lie on one polynomial of degree less than NP, LAGR returns its constant term: R82, which the spec marks as
general knowledge and asks a model to state. -/
def Obligations.LagrRecoversSecretByte : Prop :=
  ∀ (s : State) (secret : Byte) (coeffs : List Byte),
    s.TablesBuilt → s.err = 0#8 → s.np ≥ 2#8 → s.PointsHeld → s.PointsDistinct →
    (secret :: coeffs).length ≤ s.np.toNat →
    (∀ p ∈ s.points, p.2 = s.hornerValue (secret :: coeffs) p.1) →
      Answers .lagr s secret

/-- The split side neither reads nor writes the combine side, and the reverse: the sentence of R35 marked as the spec's own
inference from R26. -/
def Obligations.SplitAndCombineSidesAreSeparate : Prop :=
  (∀ (i : Instr) (s : State) (px py : Memory) (np : Byte) (dup : Bool),
    (i = .cclr ∨ (∃ a, i = .cpush a) ∨ (∃ x, i = .peval x) ∨ ∃ n, i = .split n) →
      exec i { s with px := px, py := py, np := np, dup := dup } =
        mapNext (fun t => { t with px := px, py := py, np := np, dup := dup }) (exec i s)) ∧
  (∀ (i : Instr) (s : State) (coef : Memory) (kc : Byte),
    (i = .pclr ∨ (∃ x y, i = .ppush x y) ∨ i = .lagr) →
      exec i { s with coef := coef, kc := kc } =
        mapNext (fun t => { t with coef := coef, kc := kc }) (exec i s))

/-! ### Frames -/

/-- R10, R18, R26: NOP, RDCR, the field commands, PEVAL, SPLIT and LAGR change nothing but RES, ERR and the response
stream, and NOP and RDCR not RES. -/
def Obligations.ReadingCommandsFrame : Prop :=
  ∀ (i : Instr) (s t : State), exec i s = .next t →
    (i = .nop ∨ (∃ n, i = .rdcr n) →
      t = { s with err := t.err, rsp := t.rsp }) ∧
    ((∃ a b, i = .gfadd a b) ∨ (∃ a b, i = .gfmul a b) ∨ (∃ a, i = .gfexp a) ∨ (∃ a, i = .gflog a) ∨
      (∃ x, i = .peval x) ∨ (∃ n, i = .split n) ∨ i = .lagr →
      t = { s with res := t.res, err := t.err, rsp := t.rsp })

/-- R10, R26: CCLR and CPUSH change nothing but COEF, KC, ERR and the response stream; CPUSH leaves every element of COEF
but COEF[KC] as it was. -/
def Obligations.CoefficientCommandsFrame : Prop :=
  ∀ (i : Instr) (s t : State), exec i s = .next t → (i = .cclr ∨ ∃ a, i = .cpush a) →
    t = { s with coef := t.coef, kc := t.kc, err := t.err, rsp := t.rsp } ∧
    ((∃ a, i = .cpush a) → ∀ j, j ≠ s.kc.toNat → t.coef.read j = s.coef.read j)

/-- R10, R18, R26: PCLR and PPUSH change nothing but PX, PY, NP, DUP, ERR and the response stream; PPUSH leaves every
element but number NP as it was and never clears DUP. -/
def Obligations.PointCommandsFrame : Prop :=
  ∀ (i : Instr) (s t : State), exec i s = .next t → (i = .pclr ∨ ∃ x y, i = .ppush x y) →
    t = { s with px := t.px, py := t.py, np := t.np, dup := t.dup, err := t.err, rsp := t.rsp } ∧
    ((∃ x y, i = .ppush x y) → (s.dup = true → t.dup = true) ∧
      ∀ j, j ≠ s.np.toNat → t.px.read j = s.px.read j ∧ t.py.read j = s.py.read j)

/-- R16: no command but RDCR 0x04 reads RES: apart from RES itself, the outcome is the same whatever RES held. -/
def Obligations.OnlyRdcrReadsRes : Prop :=
  ∀ (i : Instr) (s : State) (r : Byte), i ≠ .rdcr 0x04#8 →
    mapNext (fun t => t.setRes 0#8) (exec i { s with res := r }) = mapNext (fun t => t.setRes 0#8) (exec i s)

/-- R104: a coefficient leaves the block only through PEVAL and SPLIT: the outcome of any other command is the same, apart
from COEF itself, whatever COEF held. -/
def Obligations.CoefficientsLeaveOnlyByEvaluation : Prop :=
  ∀ (i : Instr) (s : State) (m : Memory), (∀ x, i ≠ .peval x) → (∀ n, i ≠ .split n) →
    mapNext (fun t => { t with coef := [] }) (exec i { s with coef := m }) =
      mapNext (fun t => { t with coef := [] }) (exec i s)

/-! ### Faults -/

/-- R100: a command word that faults writes ERR, with a code 0x01 to 0x07, and one response word, and nothing else. -/
def Obligations.FaultEntryWritesOnlyErr : Prop :=
  ∀ (s t : State) (w : CommandWord) (rest : List HostAction),
    s.cmd = .command w :: rest → s.err = 0#8 → step s = .next t → t.err ≠ 0#8 →
      0x01#8 ≤ t.err ∧ t.err ≤ 0x07#8 ∧ t.flt = true ∧
      t = { s with cmd := rest, err := t.err, rsp := s.rsp ++ [t.err ++ 0x00#8] }

/-- R98: which commands raise which faults. -/
def Obligations.CommandsRaiseTheirFaults : Prop :=
  ∀ (i : Instr) (s t : State), i.wellFormed = true → s.err = 0#8 → exec i s = .next t → t.err ≠ 0#8 →
    t.err ∈ raisable i

/-- R101: in the fault state a legal RDCR is performed; every other word, legal or not, changes no state and is answered
with the latched code. -/
def Obligations.FaultStateAnswersLatchedCode : Prop :=
  ∀ (s : State) (w : CommandWord) (rest : List HostAction),
    s.cmd = .command w :: rest → s.err ≠ 0#8 → s.flt = true ∧
      (∀ n r, decode w = .ok (.rdcr n) → ctrlRegOf n = some r →
        step s = .next { s with cmd := rest, rsp := s.rsp ++ [0x00#8 ++ s.ctrl r] }) ∧
      ((∀ n, decode w ≠ .ok (.rdcr n)) →
        step s = .next { s with cmd := rest, rsp := s.rsp ++ [s.err ++ 0x00#8] })

/-- R102: only reset leaves the fault state: without one, any number of steps leaves the block's state as the fault left
it. -/
def Obligations.FaultStateIsFrozenUntilReset : Prop :=
  ∀ (k : Nat) (s t : State), s.err ≠ 0#8 → HostAction.reset ∉ s.cmd → runSteps k s = some t →
    t = { s with cmd := t.cmd, rsp := t.rsp }

/-! ### Host procedures -/

/-- R88, R89: hexToBytes of bytesToHex is the same bytes, whether or not the host accepts capitals. The high half first is log
entry 14. -/
def Obligations.HexRoundTrip : Prop :=
  ∀ (capitals : Bool) (bs : List Byte), hexToBytes capitals (bytesToHex bs) = .ok bs

/-- R90: a share's wire form has 2 + 2·L characters and parses back to the share. -/
def Obligations.ShareWireForm : Prop :=
  ∀ (capitals : Bool) (sh : Share), sh.wire.length = 2 + 2 * sh.payload.length ∧
    (sh.id ≠ 0#8 → parseShare capitals sh.wire = .ok sh)

/-- R91: the drawn coefficients are as many as asked for and none is zero, and a draw redraws a zero byte up to RNG_RETRY_CAP
times. The source as a list is the model's choice (log entry 13). -/
def Obligations.DrawnCoefficientsAreNonzero : Prop :=
  (∀ (redraws count : Nat) (source cs rest : List Byte),
    drawCoefficients redraws count source = some (cs, rest) → cs.length = count ∧ ∀ c ∈ cs, c ≠ 0#8) ∧
  ∀ (redraws zeros : Nat) (b : Byte) (rest : List Byte), b ≠ 0#8 →
    drawCoefficient redraws (List.replicate zeros 0#8 ++ b :: rest) = if zeros ≤ redraws then some (b, rest) else none

/-- GENERATE issues L·(K + 2) + 1 commands: the count of R92 marked as the spec's own inference. -/
def Obligations.GenerateCommandCount : Prop :=
  ∀ (n : Byte) (k : Nat) (positions : List (Byte × List Byte)),
    1 ≤ k → (∀ p ∈ positions, p.2.length = k - 1) →
      (generateActions n positions).length = positions.length * (k + 2) + 1

/-- R93: the accepted shares have distinct ids, are at least two, and have payloads of one length. Ids are nonzero by the
model's choice (log entry 15). -/
def Obligations.AcceptedSharesAreUsable : Prop :=
  ∀ (capitals : Bool) (texts : List (List Char)) (shares : List Share),
    readShares capitals texts = .ok shares →
      2 ≤ shares.length ∧ (shares.map Share.id).Nodup ∧ (∀ sh ∈ shares, sh.id ≠ 0#8) ∧
      ∀ a ∈ shares, ∀ b ∈ shares, a.payload.length = b.payload.length
end

