-- ==== Sys2Proof/Laws/Memory.lean ====
section
/-! SUPPORT. The byte spaces: a read after a write, the canonical form, and spaces whose elements 0..n-1 hold a value. -/

namespace Sys2Proof.Machine

/-- A read of the index just written answers the byte written. -/
@[simp] theorem Memory.read_write_same (m : Memory) (i : Nat) (v : Byte) : (m.write i v).read i = some v := by
  induction m with
  | nil => simp [Memory.write, Memory.read]
  | cons c rest ih =>
    obtain ⟨j, w⟩ := c
    simp only [Memory.write]
    split
    · simp [Memory.read]
    · split
      · simp [Memory.read]
      · simp only [Memory.read]
        rw [if_neg (by omega), ih]

/-- A write leaves every other index alone. -/
theorem Memory.read_write_other (m : Memory) {i k : Nat} (v : Byte) (h : k ≠ i) :
    (m.write i v).read k = m.read k := by
  induction m with
  | nil => simp [Memory.write, Memory.read, Ne.symm h]
  | cons c rest ih =>
    obtain ⟨j, w⟩ := c
    simp only [Memory.write]
    split
    · simp [Memory.read, Ne.symm h]
    · split
      · rename_i hij
        subst hij
        simp [Memory.read, Ne.symm h]
      · simp [Memory.read, ih]

/-- The canonical form says that the listed indices strictly rise. -/
theorem Memory.wf_iff_pairwise (m : Memory) : m.wf = true ↔ (m.map Prod.fst).Pairwise (· < ·) := by
  induction m with
  | nil => simp [Memory.wf]
  | cons c rest ih =>
    obtain ⟨i, v⟩ := c
    cases rest with
    | nil => simp [Memory.wf]
    | cons d rest' =>
      obtain ⟨j, w⟩ := d
      simp only [Memory.wf, Bool.and_eq_true, decide_eq_true_eq, ih, List.map_cons]
      constructor
      · rintro ⟨hij, hp⟩
        refine List.pairwise_cons.mpr ⟨?_, hp⟩
        intro k hk
        rcases List.mem_cons.mp hk with rfl | hk
        · exact hij
        · exact hij.trans ((List.pairwise_cons.mp hp).1 k hk)
      · intro hp
        obtain ⟨h1, h2⟩ := List.pairwise_cons.mp hp
        exact ⟨h1 j (by simp), h2⟩

/-- The indices listed after a write are those listed before, and the one written. -/
theorem Memory.mem_write_indices (m : Memory) (i : Nat) (v : Byte) (k : Nat) :
    k ∈ (m.write i v).map Prod.fst ↔ k = i ∨ k ∈ m.map Prod.fst := by
  induction m with
  | nil => simp [Memory.write]
  | cons c rest ih =>
    obtain ⟨j, w⟩ := c
    simp only [Memory.write]
    split
    · simp
    · split
      · rename_i hij
        subst hij
        simp
      · simp only [List.map_cons, List.mem_cons, ih]
        tauto

/-- Every write keeps the canonical form. -/
theorem Memory.write_wf (m : Memory) (i : Nat) (v : Byte) (h : m.wf = true) : (m.write i v).wf = true := by
  rw [Memory.wf_iff_pairwise] at h ⊢
  induction m with
  | nil => simp [Memory.write]
  | cons c rest ih =>
    obtain ⟨j, w⟩ := c
    simp only [List.map_cons, List.pairwise_cons] at h
    simp only [Memory.write]
    split
    · rename_i hij
      simp only [List.map_cons, List.pairwise_cons, List.mem_cons]
      refine ⟨?_, h⟩
      rintro k (rfl | hk)
      · exact hij
      · exact hij.trans (h.1 k hk)
    · split
      · rename_i hij
        subst hij
        simpa using h
      · simp only [List.map_cons, List.pairwise_cons]
        refine ⟨?_, ih h.2⟩
        intro k hk
        rcases (Memory.mem_write_indices rest i v k).mp hk with rfl | hk
        · omega
        · exact h.1 k hk

/-- A space that holds exactly the elements 0..n-1 is in canonical form. -/
theorem Memory.HoldsBelow.wf {m : Memory} {n : Nat} (h : m.HoldsBelow n) : m.wf = true := by
  rw [Memory.wf_iff_pairwise, show m.map Prod.fst = List.range n from h]
  exact List.pairwise_lt_range

/-- An element holds a value exactly when its index is listed. -/
theorem Memory.read_isSome (m : Memory) (i : Nat) : (m.read i).isSome = true ↔ i ∈ m.map Prod.fst := by
  induction m with
  | nil => simp [Memory.read]
  | cons c rest ih =>
    obtain ⟨j, w⟩ := c
    simp only [Memory.read, List.map_cons, List.mem_cons]
    split
    · simp_all
    · rw [ih]
      constructor
      · exact .inr
      · rintro (rfl | h)
        · contradiction
        · exact h

/-- In a space that holds exactly the elements 0..n-1, those and no others can be read. -/
theorem Memory.HoldsBelow.read_isSome {m : Memory} {n : Nat} (h : m.HoldsBelow n) (i : Nat) :
    (m.read i).isSome = true ↔ i < n := by
  rw [Memory.read_isSome, show m.map Prod.fst = List.range n from h, List.mem_range]

/-- `ofBytes` holds exactly the elements below its length. -/
theorem Memory.ofBytes_holds (bs : List Byte) : (Memory.ofBytes bs).HoldsBelow bs.length := by
  simp [Memory.HoldsBelow, Memory.ofBytes, List.map_fst_zip]

/-- The bytes of `ofBytes` in order. -/
@[simp] theorem Memory.ofBytes_values (bs : List Byte) : (Memory.ofBytes bs).map Prod.snd = bs := by
  simp [Memory.ofBytes, List.map_snd_zip]

/-- A space that holds exactly the elements 0..n-1 is `ofBytes` of its values. -/
theorem Memory.HoldsBelow.eq_ofBytes {m : Memory} {n : Nat} (h : m.HoldsBelow n) :
    m = Memory.ofBytes (m.map Prod.snd) := by
  have hl : m.length = n := by simpa using congrArg List.length (show m.map Prod.fst = List.range n from h)
  have hz := List.zip_of_prod (l := List.range n) (l' := m.map Prod.snd) (xs := m) h rfl
  rw [Memory.ofBytes, List.length_map, hl]
  exact hz

/-- Its values number n. -/
theorem Memory.HoldsBelow.length_values {m : Memory} {n : Nat} (h : m.HoldsBelow n) : (m.map Prod.snd).length = n := by
  simpa using congrArg List.length (show m.map Prod.fst = List.range n from h)

/-- Reading an index listed in a prefix does not look at the rest. -/
theorem Memory.read_append (m m' : Memory) (i : Nat) :
    (m ++ m' : Memory).read i = (m.read i).or (Memory.read m' i) := by
  induction m with
  | nil => simp [Memory.read]
  | cons c rest ih =>
    obtain ⟨j, w⟩ := c
    simp only [List.cons_append, Memory.read, ih]
    split <;> simp

/-- One more byte at the end. -/
theorem Memory.ofBytes_append (bs : List Byte) (v : Byte) :
    Memory.ofBytes (bs ++ [v]) = Memory.ofBytes bs ++ [(bs.length, v)] := by
  simp only [Memory.ofBytes, List.length_append, List.length_singleton, List.range_succ]
  rw [List.zip_append (by simp)]
  rfl

/-- Element i of `ofBytes` is the i-th byte. -/
@[simp] theorem Memory.ofBytes_read (bs : List Byte) (i : Nat) : (Memory.ofBytes bs).read i = bs[i]? := by
  induction bs using List.reverseRecOn with
  | nil => simp [Memory.ofBytes, Memory.read]
  | append_singleton bs v ih =>
    rw [Memory.ofBytes_append, Memory.read_append, ih]
    rcases Nat.lt_trichotomy i bs.length with h | h | h
    · rw [List.getElem?_eq_getElem h, List.getElem?_append_left h, List.getElem?_eq_getElem h]
      simp
    · subst h
      simp [Memory.read]
    · rw [List.getElem?_eq_none (by omega), List.getElem?_eq_none (by simp; omega)]
      simp [Memory.read]
      omega

/-- A write above every listed index lists it last. -/
theorem Memory.write_last (m : Memory) (i : Nat) (v : Byte) (h : ∀ k ∈ m.map Prod.fst, k < i) :
    m.write i v = m ++ [(i, v)] := by
  induction m with
  | nil => rfl
  | cons c rest ih =>
    obtain ⟨j, w⟩ := c
    have hj : j < i := h j (by simp)
    simp only [Memory.write, List.cons_append]
    rw [if_neg (by omega), if_neg (by omega), ih (fun k hk => h k (by simp [hk]))]

/-- Writing element n of a space that holds exactly the elements 0..n-1 puts the byte at the end. -/
theorem Memory.HoldsBelow.write_eq {m : Memory} {n : Nat} (h : m.HoldsBelow n) (v : Byte) :
    m.write n v = m ++ [(n, v)] := by
  refine Memory.write_last m n v fun k hk => ?_
  rw [show m.map Prod.fst = List.range n from h] at hk
  exact List.mem_range.mp hk

/-- And then exactly the elements 0..n hold a value. -/
theorem Memory.HoldsBelow.write {m : Memory} {n : Nat} (h : m.HoldsBelow n) (v : Byte) :
    (m.write n v).HoldsBelow (n + 1) := by
  rw [h.write_eq v]
  simp [Memory.HoldsBelow, show m.map Prod.fst = List.range n from h, List.range_succ]

end Sys2Proof.Machine
end

