-- ==== Sys2Proof/Laws/State.lean ====
section
/-! SUPPORT. The fields of the state after each named update, one lemma per field per update, so that no proof unfolds a
record update. -/

namespace Sys2Proof.Machine

@[simp] theorem State.emit_exps (s : State) (code data : Byte) : (s.emit code data).exps = s.exps := rfl
@[simp] theorem State.emit_logs (s : State) (code data : Byte) : (s.emit code data).logs = s.logs := rfl
@[simp] theorem State.emit_coef (s : State) (code data : Byte) : (s.emit code data).coef = s.coef := rfl
@[simp] theorem State.emit_kc (s : State) (code data : Byte) : (s.emit code data).kc = s.kc := rfl
@[simp] theorem State.emit_px (s : State) (code data : Byte) : (s.emit code data).px = s.px := rfl
@[simp] theorem State.emit_py (s : State) (code data : Byte) : (s.emit code data).py = s.py := rfl
@[simp] theorem State.emit_np (s : State) (code data : Byte) : (s.emit code data).np = s.np := rfl
@[simp] theorem State.emit_res (s : State) (code data : Byte) : (s.emit code data).res = s.res := rfl
@[simp] theorem State.emit_dup (s : State) (code data : Byte) : (s.emit code data).dup = s.dup := rfl
@[simp] theorem State.emit_err (s : State) (code data : Byte) : (s.emit code data).err = s.err := rfl
@[simp] theorem State.emit_cmd (s : State) (code data : Byte) : (s.emit code data).cmd = s.cmd := rfl
@[simp] theorem State.emit_rsp (s : State) (code data : Byte) : (s.emit code data).rsp = s.rsp ++ [code ++ data] := rfl

@[simp] theorem State.emitAll_exps (s : State) (data : List Byte) : (s.emitAll data).exps = s.exps := rfl
@[simp] theorem State.emitAll_logs (s : State) (data : List Byte) : (s.emitAll data).logs = s.logs := rfl
@[simp] theorem State.emitAll_coef (s : State) (data : List Byte) : (s.emitAll data).coef = s.coef := rfl
@[simp] theorem State.emitAll_kc (s : State) (data : List Byte) : (s.emitAll data).kc = s.kc := rfl
@[simp] theorem State.emitAll_px (s : State) (data : List Byte) : (s.emitAll data).px = s.px := rfl
@[simp] theorem State.emitAll_py (s : State) (data : List Byte) : (s.emitAll data).py = s.py := rfl
@[simp] theorem State.emitAll_np (s : State) (data : List Byte) : (s.emitAll data).np = s.np := rfl
@[simp] theorem State.emitAll_res (s : State) (data : List Byte) : (s.emitAll data).res = s.res := rfl
@[simp] theorem State.emitAll_dup (s : State) (data : List Byte) : (s.emitAll data).dup = s.dup := rfl
@[simp] theorem State.emitAll_err (s : State) (data : List Byte) : (s.emitAll data).err = s.err := rfl
@[simp] theorem State.emitAll_cmd (s : State) (data : List Byte) : (s.emitAll data).cmd = s.cmd := rfl
@[simp] theorem State.emitAll_rsp (s : State) (data : List Byte) : (s.emitAll data).rsp = s.rsp ++ data.map (fun y => 0x00#8 ++ y) := rfl

@[simp] theorem State.setRes_exps (s : State) (r : Byte) : (s.setRes r).exps = s.exps := rfl
@[simp] theorem State.setRes_logs (s : State) (r : Byte) : (s.setRes r).logs = s.logs := rfl
@[simp] theorem State.setRes_coef (s : State) (r : Byte) : (s.setRes r).coef = s.coef := rfl
@[simp] theorem State.setRes_kc (s : State) (r : Byte) : (s.setRes r).kc = s.kc := rfl
@[simp] theorem State.setRes_px (s : State) (r : Byte) : (s.setRes r).px = s.px := rfl
@[simp] theorem State.setRes_py (s : State) (r : Byte) : (s.setRes r).py = s.py := rfl
@[simp] theorem State.setRes_np (s : State) (r : Byte) : (s.setRes r).np = s.np := rfl
@[simp] theorem State.setRes_res (s : State) (r : Byte) : (s.setRes r).res = r := rfl
@[simp] theorem State.setRes_dup (s : State) (r : Byte) : (s.setRes r).dup = s.dup := rfl
@[simp] theorem State.setRes_err (s : State) (r : Byte) : (s.setRes r).err = s.err := rfl
@[simp] theorem State.setRes_cmd (s : State) (r : Byte) : (s.setRes r).cmd = s.cmd := rfl
@[simp] theorem State.setRes_rsp (s : State) (r : Byte) : (s.setRes r).rsp = s.rsp := rfl

@[simp] theorem State.setErr_exps (s : State) (c : Byte) : (s.setErr c).exps = s.exps := rfl
@[simp] theorem State.setErr_logs (s : State) (c : Byte) : (s.setErr c).logs = s.logs := rfl
@[simp] theorem State.setErr_coef (s : State) (c : Byte) : (s.setErr c).coef = s.coef := rfl
@[simp] theorem State.setErr_kc (s : State) (c : Byte) : (s.setErr c).kc = s.kc := rfl
@[simp] theorem State.setErr_px (s : State) (c : Byte) : (s.setErr c).px = s.px := rfl
@[simp] theorem State.setErr_py (s : State) (c : Byte) : (s.setErr c).py = s.py := rfl
@[simp] theorem State.setErr_np (s : State) (c : Byte) : (s.setErr c).np = s.np := rfl
@[simp] theorem State.setErr_res (s : State) (c : Byte) : (s.setErr c).res = s.res := rfl
@[simp] theorem State.setErr_dup (s : State) (c : Byte) : (s.setErr c).dup = s.dup := rfl
@[simp] theorem State.setErr_err (s : State) (c : Byte) : (s.setErr c).err = c := rfl
@[simp] theorem State.setErr_cmd (s : State) (c : Byte) : (s.setErr c).cmd = s.cmd := rfl
@[simp] theorem State.setErr_rsp (s : State) (c : Byte) : (s.setErr c).rsp = s.rsp := rfl

@[simp] theorem State.setDup_exps (s : State) : s.setDup.exps = s.exps := rfl
@[simp] theorem State.setDup_logs (s : State) : s.setDup.logs = s.logs := rfl
@[simp] theorem State.setDup_coef (s : State) : s.setDup.coef = s.coef := rfl
@[simp] theorem State.setDup_kc (s : State) : s.setDup.kc = s.kc := rfl
@[simp] theorem State.setDup_px (s : State) : s.setDup.px = s.px := rfl
@[simp] theorem State.setDup_py (s : State) : s.setDup.py = s.py := rfl
@[simp] theorem State.setDup_np (s : State) : s.setDup.np = s.np := rfl
@[simp] theorem State.setDup_res (s : State) : s.setDup.res = s.res := rfl
@[simp] theorem State.setDup_dup (s : State) : s.setDup.dup = true := rfl
@[simp] theorem State.setDup_err (s : State) : s.setDup.err = s.err := rfl
@[simp] theorem State.setDup_cmd (s : State) : s.setDup.cmd = s.cmd := rfl
@[simp] theorem State.setDup_rsp (s : State) : s.setDup.rsp = s.rsp := rfl

@[simp] theorem State.setCmd_exps (s : State) (actions : List HostAction) : (s.setCmd actions).exps = s.exps := rfl
@[simp] theorem State.setCmd_logs (s : State) (actions : List HostAction) : (s.setCmd actions).logs = s.logs := rfl
@[simp] theorem State.setCmd_coef (s : State) (actions : List HostAction) : (s.setCmd actions).coef = s.coef := rfl
@[simp] theorem State.setCmd_kc (s : State) (actions : List HostAction) : (s.setCmd actions).kc = s.kc := rfl
@[simp] theorem State.setCmd_px (s : State) (actions : List HostAction) : (s.setCmd actions).px = s.px := rfl
@[simp] theorem State.setCmd_py (s : State) (actions : List HostAction) : (s.setCmd actions).py = s.py := rfl
@[simp] theorem State.setCmd_np (s : State) (actions : List HostAction) : (s.setCmd actions).np = s.np := rfl
@[simp] theorem State.setCmd_res (s : State) (actions : List HostAction) : (s.setCmd actions).res = s.res := rfl
@[simp] theorem State.setCmd_dup (s : State) (actions : List HostAction) : (s.setCmd actions).dup = s.dup := rfl
@[simp] theorem State.setCmd_err (s : State) (actions : List HostAction) : (s.setCmd actions).err = s.err := rfl
@[simp] theorem State.setCmd_cmd (s : State) (actions : List HostAction) : (s.setCmd actions).cmd = actions := rfl
@[simp] theorem State.setCmd_rsp (s : State) (actions : List HostAction) : (s.setCmd actions).rsp = s.rsp := rfl

@[simp] theorem State.pushCoef_exps (s : State) (a : Byte) : (s.pushCoef a).exps = s.exps := rfl
@[simp] theorem State.pushCoef_logs (s : State) (a : Byte) : (s.pushCoef a).logs = s.logs := rfl
@[simp] theorem State.pushCoef_coef (s : State) (a : Byte) : (s.pushCoef a).coef = s.coef.write s.kc.toNat a := rfl
@[simp] theorem State.pushCoef_kc (s : State) (a : Byte) : (s.pushCoef a).kc = s.kc + 1 := rfl
@[simp] theorem State.pushCoef_px (s : State) (a : Byte) : (s.pushCoef a).px = s.px := rfl
@[simp] theorem State.pushCoef_py (s : State) (a : Byte) : (s.pushCoef a).py = s.py := rfl
@[simp] theorem State.pushCoef_np (s : State) (a : Byte) : (s.pushCoef a).np = s.np := rfl
@[simp] theorem State.pushCoef_res (s : State) (a : Byte) : (s.pushCoef a).res = s.res := rfl
@[simp] theorem State.pushCoef_dup (s : State) (a : Byte) : (s.pushCoef a).dup = s.dup := rfl
@[simp] theorem State.pushCoef_err (s : State) (a : Byte) : (s.pushCoef a).err = s.err := rfl
@[simp] theorem State.pushCoef_cmd (s : State) (a : Byte) : (s.pushCoef a).cmd = s.cmd := rfl
@[simp] theorem State.pushCoef_rsp (s : State) (a : Byte) : (s.pushCoef a).rsp = s.rsp := rfl

@[simp] theorem State.clearCoef_exps (s : State) : s.clearCoef.exps = s.exps := rfl
@[simp] theorem State.clearCoef_logs (s : State) : s.clearCoef.logs = s.logs := rfl
@[simp] theorem State.clearCoef_coef (s : State) : s.clearCoef.coef = [] := rfl
@[simp] theorem State.clearCoef_kc (s : State) : s.clearCoef.kc = 0#8 := rfl
@[simp] theorem State.clearCoef_px (s : State) : s.clearCoef.px = s.px := rfl
@[simp] theorem State.clearCoef_py (s : State) : s.clearCoef.py = s.py := rfl
@[simp] theorem State.clearCoef_np (s : State) : s.clearCoef.np = s.np := rfl
@[simp] theorem State.clearCoef_res (s : State) : s.clearCoef.res = s.res := rfl
@[simp] theorem State.clearCoef_dup (s : State) : s.clearCoef.dup = s.dup := rfl
@[simp] theorem State.clearCoef_err (s : State) : s.clearCoef.err = s.err := rfl
@[simp] theorem State.clearCoef_cmd (s : State) : s.clearCoef.cmd = s.cmd := rfl
@[simp] theorem State.clearCoef_rsp (s : State) : s.clearCoef.rsp = s.rsp := rfl

@[simp] theorem State.pushPoint_exps (s : State) (x y : Byte) : (s.pushPoint x y).exps = s.exps := rfl
@[simp] theorem State.pushPoint_logs (s : State) (x y : Byte) : (s.pushPoint x y).logs = s.logs := rfl
@[simp] theorem State.pushPoint_coef (s : State) (x y : Byte) : (s.pushPoint x y).coef = s.coef := rfl
@[simp] theorem State.pushPoint_kc (s : State) (x y : Byte) : (s.pushPoint x y).kc = s.kc := rfl
@[simp] theorem State.pushPoint_px (s : State) (x y : Byte) : (s.pushPoint x y).px = s.px.write s.np.toNat x := rfl
@[simp] theorem State.pushPoint_py (s : State) (x y : Byte) : (s.pushPoint x y).py = s.py.write s.np.toNat y := rfl
@[simp] theorem State.pushPoint_np (s : State) (x y : Byte) : (s.pushPoint x y).np = s.np + 1 := rfl
@[simp] theorem State.pushPoint_res (s : State) (x y : Byte) : (s.pushPoint x y).res = s.res := rfl
@[simp] theorem State.pushPoint_dup (s : State) (x y : Byte) : (s.pushPoint x y).dup = s.dup := rfl
@[simp] theorem State.pushPoint_err (s : State) (x y : Byte) : (s.pushPoint x y).err = s.err := rfl
@[simp] theorem State.pushPoint_cmd (s : State) (x y : Byte) : (s.pushPoint x y).cmd = s.cmd := rfl
@[simp] theorem State.pushPoint_rsp (s : State) (x y : Byte) : (s.pushPoint x y).rsp = s.rsp := rfl

@[simp] theorem State.clearPoints_exps (s : State) : s.clearPoints.exps = s.exps := rfl
@[simp] theorem State.clearPoints_logs (s : State) : s.clearPoints.logs = s.logs := rfl
@[simp] theorem State.clearPoints_coef (s : State) : s.clearPoints.coef = s.coef := rfl
@[simp] theorem State.clearPoints_kc (s : State) : s.clearPoints.kc = s.kc := rfl
@[simp] theorem State.clearPoints_px (s : State) : s.clearPoints.px = [] := rfl
@[simp] theorem State.clearPoints_py (s : State) : s.clearPoints.py = [] := rfl
@[simp] theorem State.clearPoints_np (s : State) : s.clearPoints.np = 0#8 := rfl
@[simp] theorem State.clearPoints_res (s : State) : s.clearPoints.res = s.res := rfl
@[simp] theorem State.clearPoints_dup (s : State) : s.clearPoints.dup = false := rfl
@[simp] theorem State.clearPoints_err (s : State) : s.clearPoints.err = s.err := rfl
@[simp] theorem State.clearPoints_cmd (s : State) : s.clearPoints.cmd = s.cmd := rfl
@[simp] theorem State.clearPoints_rsp (s : State) : s.clearPoints.rsp = s.rsp := rfl

@[simp] theorem State.raise_exps (s : State) (f : FaultCode) : (s.raise f).exps = s.exps := rfl
@[simp] theorem State.raise_logs (s : State) (f : FaultCode) : (s.raise f).logs = s.logs := rfl
@[simp] theorem State.raise_coef (s : State) (f : FaultCode) : (s.raise f).coef = s.coef := rfl
@[simp] theorem State.raise_kc (s : State) (f : FaultCode) : (s.raise f).kc = s.kc := rfl
@[simp] theorem State.raise_px (s : State) (f : FaultCode) : (s.raise f).px = s.px := rfl
@[simp] theorem State.raise_py (s : State) (f : FaultCode) : (s.raise f).py = s.py := rfl
@[simp] theorem State.raise_np (s : State) (f : FaultCode) : (s.raise f).np = s.np := rfl
@[simp] theorem State.raise_res (s : State) (f : FaultCode) : (s.raise f).res = s.res := rfl
@[simp] theorem State.raise_dup (s : State) (f : FaultCode) : (s.raise f).dup = s.dup := rfl
@[simp] theorem State.raise_err (s : State) (f : FaultCode) : (s.raise f).err = f.code := rfl
@[simp] theorem State.raise_cmd (s : State) (f : FaultCode) : (s.raise f).cmd = s.cmd := rfl
@[simp] theorem State.raise_rsp (s : State) (f : FaultCode) : (s.raise f).rsp = s.rsp ++ [f.code ++ 0x00#8] := rfl

@[simp] theorem State.answerLatched_exps (s : State) : s.answerLatched.exps = s.exps := rfl
@[simp] theorem State.answerLatched_logs (s : State) : s.answerLatched.logs = s.logs := rfl
@[simp] theorem State.answerLatched_coef (s : State) : s.answerLatched.coef = s.coef := rfl
@[simp] theorem State.answerLatched_kc (s : State) : s.answerLatched.kc = s.kc := rfl
@[simp] theorem State.answerLatched_px (s : State) : s.answerLatched.px = s.px := rfl
@[simp] theorem State.answerLatched_py (s : State) : s.answerLatched.py = s.py := rfl
@[simp] theorem State.answerLatched_np (s : State) : s.answerLatched.np = s.np := rfl
@[simp] theorem State.answerLatched_res (s : State) : s.answerLatched.res = s.res := rfl
@[simp] theorem State.answerLatched_dup (s : State) : s.answerLatched.dup = s.dup := rfl
@[simp] theorem State.answerLatched_err (s : State) : s.answerLatched.err = s.err := rfl
@[simp] theorem State.answerLatched_cmd (s : State) : s.answerLatched.cmd = s.cmd := rfl
@[simp] theorem State.answerLatched_rsp (s : State) : s.answerLatched.rsp = s.rsp ++ [s.err ++ 0x00#8] := rfl

@[simp] theorem State.resetBlock_exps (s : State) : s.resetBlock.exps = State.reset.exps := by rw [State.resetBlock]
@[simp] theorem State.resetBlock_logs (s : State) : s.resetBlock.logs = State.reset.logs := by rw [State.resetBlock]
@[simp] theorem State.resetBlock_coef (s : State) : s.resetBlock.coef = State.reset.coef := by rw [State.resetBlock]
@[simp] theorem State.resetBlock_kc (s : State) : s.resetBlock.kc = State.reset.kc := by rw [State.resetBlock]
@[simp] theorem State.resetBlock_px (s : State) : s.resetBlock.px = State.reset.px := by rw [State.resetBlock]
@[simp] theorem State.resetBlock_py (s : State) : s.resetBlock.py = State.reset.py := by rw [State.resetBlock]
@[simp] theorem State.resetBlock_np (s : State) : s.resetBlock.np = State.reset.np := by rw [State.resetBlock]
@[simp] theorem State.resetBlock_res (s : State) : s.resetBlock.res = State.reset.res := by rw [State.resetBlock]
@[simp] theorem State.resetBlock_dup (s : State) : s.resetBlock.dup = State.reset.dup := by rw [State.resetBlock]
@[simp] theorem State.resetBlock_err (s : State) : s.resetBlock.err = State.reset.err := by rw [State.resetBlock]
@[simp] theorem State.resetBlock_cmd (s : State) : s.resetBlock.cmd = s.cmd := by rw [State.resetBlock]
@[simp] theorem State.resetBlock_rsp (s : State) : s.resetBlock.rsp = s.rsp := by rw [State.resetBlock]

@[simp] theorem State.withLog1_exps (s : State) (v : Byte) : (s.withLog1 v).exps = s.exps := rfl
@[simp] theorem State.withLog1_logs (s : State) (v : Byte) : (s.withLog1 v).logs = s.logs.set 0 v := rfl
@[simp] theorem State.withLog1_coef (s : State) (v : Byte) : (s.withLog1 v).coef = s.coef := rfl
@[simp] theorem State.withLog1_kc (s : State) (v : Byte) : (s.withLog1 v).kc = s.kc := rfl
@[simp] theorem State.withLog1_px (s : State) (v : Byte) : (s.withLog1 v).px = s.px := rfl
@[simp] theorem State.withLog1_py (s : State) (v : Byte) : (s.withLog1 v).py = s.py := rfl
@[simp] theorem State.withLog1_np (s : State) (v : Byte) : (s.withLog1 v).np = s.np := rfl
@[simp] theorem State.withLog1_res (s : State) (v : Byte) : (s.withLog1 v).res = s.res := rfl
@[simp] theorem State.withLog1_dup (s : State) (v : Byte) : (s.withLog1 v).dup = s.dup := rfl
@[simp] theorem State.withLog1_err (s : State) (v : Byte) : (s.withLog1 v).err = s.err := rfl
@[simp] theorem State.withLog1_cmd (s : State) (v : Byte) : (s.withLog1 v).cmd = s.cmd := rfl
@[simp] theorem State.withLog1_rsp (s : State) (v : Byte) : (s.withLog1 v).rsp = s.rsp := rfl

end Sys2Proof.Machine
end

