-- ==== Sys2Proof/Laws/Ops.lean ====
section
/-! SUPPORT. What each shared operation can do, said once: the fault-state gate, element reads, the Horner loop, the
duplicate search and the Lagrange loops. -/

namespace Sys2Proof.Machine

/-! ### Reset -/

@[simp] theorem State.reset_exps : State.reset.exps = Tables.constructed.exps := by rw [State.reset]
@[simp] theorem State.reset_logs : State.reset.logs = Tables.constructed.logs := by rw [State.reset]
@[simp] theorem State.reset_coef : State.reset.coef = [] := rfl
@[simp] theorem State.reset_kc : State.reset.kc = 0#8 := rfl
@[simp] theorem State.reset_px : State.reset.px = [] := rfl
@[simp] theorem State.reset_py : State.reset.py = [] := rfl
@[simp] theorem State.reset_np : State.reset.np = 0#8 := rfl
@[simp] theorem State.reset_res : State.reset.res = 0#8 := rfl
@[simp] theorem State.reset_dup : State.reset.dup = false := rfl
@[simp] theorem State.reset_err : State.reset.err = 0#8 := rfl
@[simp] theorem State.reset_cmd : State.reset.cmd = [] := rfl
@[simp] theorem State.reset_rsp : State.reset.rsp = [] := rfl

/-! ### The gate and the outcomes -/

/-- FLT is set exactly when ERR ≠ 0 (R18). -/
theorem State.flt_iff (s : State) : s.flt = true ↔ s.err ≠ 0#8 := decide_eq_true_iff

/-- Out of the fault state the gate lets the command through. -/
theorem unlessFaulted_of_ok {s : State} (h : s.err = 0#8) (r : Result) : unlessFaulted s r = r :=
  if_neg fun hf => s.flt_iff.mp hf h

/-- In the fault state the command is not performed and the latched code is answered (R101). -/
theorem unlessFaulted_of_fault {s : State} (h : s.err ≠ 0#8) (r : Result) :
    unlessFaulted s r = .next s.answerLatched := if_pos (s.flt_iff.mpr h)

/-- A gated command that answers t either was not performed, or ran out of the fault state. -/
theorem unlessFaulted_next {s t : State} {r : Result} (h : unlessFaulted s r = .next t) :
    (s.err ≠ 0#8 ∧ t = s.answerLatched) ∨ (s.err = 0#8 ∧ r = .next t) := by
  by_cases he : s.err = 0#8
  · rw [unlessFaulted_of_ok he] at h
    exact .inr ⟨he, h⟩
  · rw [unlessFaulted_of_fault he] at h
    injection h with h
    exact .inl ⟨he, h.symm⟩

/-- A value was read and the continuation answered. -/
theorem withValue_next {α : Type} {v : Except Fault α} {k : α → Result} {t : State} (h : withValue v k = .next t) :
    ∃ x, v = .ok x ∧ k x = .next t := by
  cases v with
  | ok x => exact ⟨x, rfl, h⟩
  | error f => cases h

@[simp] theorem withValue_ok {α : Type} (x : α) (k : α → Result) : withValue (.ok x) k = k x := rfl

/-- Every fault code is 0x01 to 0x07 (R98). -/
theorem FaultCode.code_range (f : FaultCode) : f.code ≠ 0#8 ∧ 0x01#8 ≤ f.code ∧ f.code ≤ 0x07#8 := by
  cases f <;> decide

/-! ### Element reads -/

/-- A read answers a value exactly when the element holds one. -/
theorem element_eq_ok {space : Space} {m : Memory} {i : Nat} {v : Byte} :
    element space m i = .ok v ↔ m.read i = some v := by
  unfold element
  cases m.read i <;> simp

/-- In a space that holds exactly the elements 0..n-1, element i is its i-th value. -/
theorem Memory.HoldsBelow.element {m : Memory} {n : Nat} (h : m.HoldsBelow n) (space : Space) {i : Nat} (hi : i < n) :
    element space m i = .ok ((m.map Prod.snd)[i]'(by rw [h.length_values]; exact hi)) := by
  rw [element_eq_ok]
  conv_lhs => rw [h.eq_ofBytes]
  rw [Memory.ofBytes_read, List.getElem?_eq_getElem]

theorem State.logAt_of_ne {s : State} {e : Byte} (h : e ≠ 0#8) : s.logAt e = .ok (s.log e h) := dif_neg h

@[simp] theorem State.logAt_zero (s : State) : s.logAt 0#8 = .error (.noValue .logs 0) := by simp [State.logAt]

/-! ### The Horner loop -/

/-- Over the coefficients held, R66's loop is a fold from the highest degree down. -/
theorem State.hornerFrom_ok {s : State} (h : s.CoefHeld) (x : Byte) (n : Nat) (hn : n ≤ s.kc.toNat) (acc : Byte) :
    s.hornerFrom x n acc =
      .ok ((s.coefficients.take n).foldr (fun c a => s.gfMul a x ^^^ c) acc) := by
  have hl : s.coefficients.length = s.kc.toNat := Memory.HoldsBelow.length_values h
  induction n generalizing acc with
  | zero => simp [State.hornerFrom]
  | succ n ih =>
    have hr := Memory.HoldsBelow.element h .coef (i := n) (by omega)
    simp only [State.hornerFrom, State.coefAt, hr]
    rw [ih (by omega)]
    rw [List.take_succ_eq_append_getElem (by omega : n < s.coefficients.length), List.foldr_append]
    rfl

/-- The evaluator answers the Horner value of the coefficients held (R66). -/
theorem State.horner_ok {s : State} (h : s.CoefHeld) (x : Byte) :
    s.horner x = .ok (s.hornerValue s.coefficients x) := by
  have hl : s.coefficients.length = s.kc.toNat := Memory.HoldsBelow.length_values h
  rw [State.horner, State.hornerFrom_ok h x _ (Nat.le_refl _), ← hl, List.take_length]
  rfl

/-- Y(1), ..., Y(n) in order (R69). -/
theorem State.evaluations_ok {s : State} (h : s.CoefHeld) (n : Nat) :
    s.evaluations n =
      .ok ((List.range n).map fun k => s.hornerValue s.coefficients (BitVec.ofNat 8 (k + 1))) := by
  induction n with
  | zero => rfl
  | succ n ih => simp [State.evaluations, ih, State.horner_ok h, List.range_succ]

/-! ### The duplicate search -/

/-- R74's search over the X coordinates held answers whether x is among those from index i on. -/
theorem State.findX_ok {s : State} (h : s.px.HoldsBelow s.np.toNat) (x : Byte) (count i : Nat)
    (hn : i + count = s.np.toNat) : s.findX x count i = .ok (decide (x ∈ s.xs.drop i)) := by
  have hl : s.xs.length = s.np.toNat := h.length_values
  induction count generalizing i with
  | zero =>
    rw [List.drop_eq_nil_of_le (by omega)]
    simp [State.findX]
  | succ count ih =>
    have hi : i < s.xs.length := by omega
    have hr := h.element .px (i := i) (by omega)
    simp only [State.findX, State.pxAt, hr]
    rw [List.drop_eq_getElem_cons hi]
    split
    · rename_i heq
      simp only [List.mem_cons, Except.ok.injEq, Eq.comm (a := true), decide_eq_true_eq]
      exact .inl heq.symm
    · rename_i hne
      rw [ih (i + 1) (by omega)]
      have hne' : x ≠ s.xs[i] := fun h => hne h.symm
      simp only [List.mem_cons, hne', false_or]

/-! ### The Lagrange loops -/

/-- Two bytes add to zero only if they are equal (R53). -/
theorem gfAdd_eq_zero {a b : Byte} : gfAdd a b = 0#8 ↔ a = b := BitVec.xor_eq_zero_iff

/-- One step of R75's inner loop on coordinates whose logarithms exist. -/
theorem State.exponentStep_ok {s : State} {xi xj : Byte} (hj : xj ≠ 0#8) (hd : gfAdd xi xj ≠ 0#8) (product : Nat) :
    s.exponentStep xi xj product =
      .ok ((product + (s.log xj hj).toNat + 255 - (s.log (gfAdd xi xj) hd).toNat) % 255) := by
  simp only [State.exponentStep, State.logAt_of_ne hj, State.logAt_of_ne hd, Config.groupOrder]

/-- R75's inner loop answers when every other coordinate is nonzero and different from X_i. -/
theorem State.exponentLoop_answers {s : State} {i : Nat} {xi : Byte} (js : List Nat)
    (h : ∀ j ∈ js, j ≠ i → ∃ xj, s.pxAt j = .ok xj ∧ xj ≠ 0#8 ∧ xj ≠ xi) (product : Nat) :
    ∃ p, s.exponentLoop i xi js product = .ok p := by
  induction js generalizing product with
  | nil => exact ⟨product, rfl⟩
  | cons j js ih =>
    have ih := ih fun k hk => h k (List.mem_cons_of_mem _ hk)
    unfold State.exponentLoop
    split
    · exact ih product
    · rename_i hji
      obtain ⟨xj, hx, h0, hne⟩ := h j (by simp) hji
      have hd : gfAdd xi xj ≠ 0#8 := fun hz => hne (gfAdd_eq_zero.mp hz).symm
      simp only [hx, State.exponentStep_ok h0 hd]
      exact ih _

/-- Over a good point buffer, every term of R75's sum answers a byte. -/
theorem State.term_answers {s : State} (hp : s.PointsHeld) (hd : s.PointsDistinct) {i : Nat} (hi : i < s.np.toNat) :
    ∃ v, s.term i = .ok v := by
  have hlx : s.xs.length = s.np.toNat := hp.1.length_values
  have hx : ∀ j, (hj : j < s.np.toNat) → s.pxAt j = .ok (s.xs[j]'(by omega)) := fun j hj => hp.1.element .px hj
  have hy := hp.2.element .py hi
  unfold State.term
  rw [State.pyAt, hy]
  dsimp only
  split
  · exact ⟨_, rfl⟩
  · rename_i hy0
    unfold State.termExponent
    rw [hx i hi]
    dsimp only
    obtain ⟨p, hq⟩ := State.exponentLoop_answers (s := s) (i := i) (xi := s.xs[i]'(by omega)) (List.range s.np.toNat)
      (fun j hj hji => by
        have hj := List.mem_range.mp hj
        refine ⟨_, hx j hj, fun h0 => hd.2 (h0 ▸ List.getElem_mem _), fun he => hji ?_⟩
        exact (List.Nodup.getElem_inj_iff hd.1).mp he) (s.log _ hy0).toNat
    rw [hq]
    exact ⟨_, rfl⟩

/-- Over a good point buffer the interpolator answers a byte (R75). -/
theorem State.lagrange0_answers {s : State} (hp : s.PointsHeld) (hd : s.PointsDistinct) : ∃ r, s.lagrange0 = .ok r := by
  have h : ∀ l : List Nat, (∀ i ∈ l, i < s.np.toNat) → ∀ sum, ∃ r, s.sumTerms l sum = .ok r := by
    intro l
    induction l with
    | nil => exact fun _ sum => ⟨sum, rfl⟩
    | cons i l ih =>
      intro hl sum
      obtain ⟨v, hv⟩ := State.term_answers hp hd (hl i (by simp))
      simp only [State.sumTerms, hv]
      exact ih (fun k hk => hl k (by simp [hk])) _
  exact h _ (fun i hi => List.mem_range.mp hi) _

/-- The sum of the terms, when each index answers one. -/
theorem State.sumTerms_ok {s : State} (f : Nat → Byte) (l : List Nat) (hf : ∀ i ∈ l, s.term i = .ok (f i))
    (sum : Byte) : s.sumTerms l sum = .ok ((l.map f).foldl gfAdd sum) := by
  induction l generalizing sum with
  | nil => rfl
  | cons i l ih =>
    simp only [State.sumTerms, hf i (by simp), List.map_cons, List.foldl_cons]
    exact ih (fun k hk => hf k (by simp [hk])) _

end Sys2Proof.Machine
end

