-- ==== Sys2Proof/Laws/Exec.lean ====
section
/-! SUPPORT. What each command can do: if it answers t, one of the listed cases holds. A gated command in the fault state
answers the latched code (`unlessFaulted_next`); the lemmas say the rest. -/

namespace Sys2Proof.Machine

/-- NOP's two outcomes (R83, R101). -/
theorem execNop_next {s t : State} (h : execNop s = .next t) :
    (s.err ≠ 0#8 ∧ t = s.answerLatched) ∨ (s.err = 0#8 ∧ t = s.emit 0x00#8 0x00#8) := by
  rcases unlessFaulted_next h with h | ⟨he, h⟩
  · exact .inl h
  · injection h with h
    exact .inr ⟨he, h.symm⟩

/-- An illegal word's two outcomes (R42, R101). -/
theorem takeIllegal_next {s t : State} (h : takeIllegal s = .next t) :
    (s.err ≠ 0#8 ∧ t = s.answerLatched) ∨ (s.err = 0#8 ∧ t = s.raise .illegal) := by
  rcases unlessFaulted_next h with h | ⟨he, h⟩
  · exact .inl h
  · injection h with h
    exact .inr ⟨he, h.symm⟩

/-- The illegal word always answers a next state. -/
theorem takeIllegal_answers (s : State) : ∃ t, takeIllegal s = .next t := by
  unfold takeIllegal unlessFaulted raising
  split <;> exact ⟨_, rfl⟩

/-- RDCR reads a register, gate or no gate, or is illegal (R84). -/
theorem execRdcr_next {n : Byte} {s t : State} (h : execRdcr n s = .next t) :
    (∃ r, ctrlRegOf n = some r ∧ t = s.emit 0x00#8 (s.ctrl r)) ∨
      (ctrlRegOf n = none ∧ takeIllegal s = .next t) := by
  unfold execRdcr at h
  split at h
  · rename_i r hr
    injection h with h
    exact .inl ⟨r, hr, h.symm⟩
  · rename_i hr
    exact .inr ⟨hr, h⟩

/-- RDCR with a number of 0x04 or less names a register (R20). -/
theorem ctrlRegOf_isSome : ∀ n : Byte, (ctrlRegOf n).isSome = decide (n ≤ 0x04#8) := by decide

/-- A command that computes r without a fault of its own. -/
theorem gated_finishing_next {r : Byte} {s t : State} (h : unlessFaulted s (finishing r s) = .next t) :
    (s.err ≠ 0#8 ∧ t = s.answerLatched) ∨ (s.err = 0#8 ∧ t = (s.setRes r).emit 0x00#8 r) := by
  rcases unlessFaulted_next h with h | ⟨he, h⟩
  · exact .inl h
  · injection h with h
    exact .inr ⟨he, h.symm⟩

/-- GFADD (R57). -/
theorem execGfadd_next {a b : Byte} {s t : State} (h : execGfadd a b s = .next t) :
    (s.err ≠ 0#8 ∧ t = s.answerLatched) ∨ (s.err = 0#8 ∧ t = (s.setRes (gfAdd a b)).emit 0x00#8 (gfAdd a b)) :=
  gated_finishing_next h

/-- GFMUL (R58). -/
theorem execGfmul_next {a b : Byte} {s t : State} (h : execGfmul a b s = .next t) :
    (s.err ≠ 0#8 ∧ t = s.answerLatched) ∨ (s.err = 0#8 ∧ t = (s.setRes (s.gfMul a b)).emit 0x00#8 (s.gfMul a b)) :=
  gated_finishing_next h

/-- GFEXP (R59). -/
theorem execGfexp_next {a : Byte} {s t : State} (h : execGfexp a s = .next t) :
    (s.err ≠ 0#8 ∧ t = s.answerLatched) ∨ (s.err = 0#8 ∧ t = (s.setRes (s.expAt a)).emit 0x00#8 (s.expAt a)) :=
  gated_finishing_next h

/-- GFLOG (R60). -/
theorem execGflog_next {a : Byte} {s t : State} (h : execGflog a s = .next t) :
    (s.err ≠ 0#8 ∧ t = s.answerLatched) ∨
      (s.err = 0#8 ∧ (a = 0#8 ∧ t = s.raise .log0 ∨ ∃ ha : a ≠ 0#8, t = (s.setRes (s.log a ha)).emit 0x00#8 (s.log a ha))) := by
  rcases unlessFaulted_next h with h | ⟨he, h⟩
  · exact .inl h
  · refine .inr ⟨he, ?_⟩
    split at h
    · rename_i ha
      injection h with h
      exact .inl ⟨ha, h.symm⟩
    · rename_i ha
      injection h with h
      exact .inr ⟨ha, h.symm⟩

/-- CCLR (R64). -/
theorem execCclr_next {s t : State} (h : execCclr s = .next t) :
    (s.err ≠ 0#8 ∧ t = s.answerLatched) ∨ (s.err = 0#8 ∧ t = s.clearCoef.emit 0x00#8 0x00#8) := by
  rcases unlessFaulted_next h with h | ⟨he, h⟩
  · exact .inl h
  · injection h with h
    exact .inr ⟨he, h.symm⟩

/-- CPUSH (R65). -/
theorem execCpush_next {a : Byte} {s t : State} (h : execCpush a s = .next t) :
    (s.err ≠ 0#8 ∧ t = s.answerLatched) ∨
      (s.err = 0#8 ∧ (s.kc.toNat = 255 ∧ t = s.raise .full ∨ s.kc.toNat ≠ 255 ∧ t = (s.pushCoef a).emit 0x00#8 0x00#8)) := by
  rcases unlessFaulted_next h with h | ⟨he, h⟩
  · exact .inl h
  · refine .inr ⟨he, ?_⟩
    split at h
    · rename_i hk
      injection h with h
      exact .inl ⟨hk, h.symm⟩
    · rename_i hk
      injection h with h
      exact .inr ⟨hk, h.symm⟩

/-- PEVAL (R68). -/
theorem execPeval_next {x : Byte} {s t : State} (h : execPeval x s = .next t) :
    (s.err ≠ 0#8 ∧ t = s.answerLatched) ∨
      (s.err = 0#8 ∧ (x = 0#8 ∧ t = s.raise .range ∨ x ≠ 0#8 ∧ s.kc = 0#8 ∧ t = s.raise .empty ∨
        x ≠ 0#8 ∧ s.kc ≠ 0#8 ∧ ∃ r, s.horner x = .ok r ∧ t = (s.setRes r).emit 0x00#8 r)) := by
  rcases unlessFaulted_next h with h | ⟨he, h⟩
  · exact .inl h
  · refine .inr ⟨he, ?_⟩
    split at h
    · rename_i hx
      injection h with h
      exact .inl ⟨hx, h.symm⟩
    · rename_i hx
      split at h
      · rename_i hk
        injection h with h
        exact .inr (.inl ⟨hx, hk, h.symm⟩)
      · rename_i hk
        obtain ⟨r, hr, h⟩ := withValue_next h
        injection h with h
        exact .inr (.inr ⟨hx, hk, r, hr, h.symm⟩)

/-- SPLIT (R69). -/
theorem execSplit_next {n : Byte} {s t : State} (h : execSplit n s = .next t) :
    (s.err ≠ 0#8 ∧ t = s.answerLatched) ∨
      (s.err = 0#8 ∧ (n = 0#8 ∧ t = s.raise .range ∨ n ≠ 0#8 ∧ s.kc = 0#8 ∧ t = s.raise .empty ∨
        n ≠ 0#8 ∧ s.kc ≠ 0#8 ∧ s.kc.toNat > n.toNat ∧ t = s.raise .kn ∨
        n ≠ 0#8 ∧ s.kc ≠ 0#8 ∧ s.kc.toNat ≤ n.toNat ∧
          ∃ ys, s.evaluations n.toNat = .ok ys ∧ t = (s.emitAll ys).setRes (ys.getLastD s.res))) := by
  rcases unlessFaulted_next h with h | ⟨he, h⟩
  · exact .inl h
  · refine .inr ⟨he, ?_⟩
    split at h
    · rename_i hn
      injection h with h
      exact .inl ⟨hn, h.symm⟩
    · rename_i hn
      split at h
      · rename_i hk
        injection h with h
        exact .inr (.inl ⟨hn, hk, h.symm⟩)
      · rename_i hk
        split at h
        · rename_i hkn
          injection h with h
          exact .inr (.inr (.inl ⟨hn, hk, hkn, h.symm⟩))
        · rename_i hkn
          obtain ⟨ys, hys, h⟩ := withValue_next h
          injection h with h
          exact .inr (.inr (.inr ⟨hn, hk, Nat.le_of_not_gt hkn, ys, hys, h.symm⟩))

/-- PCLR (R73). -/
theorem execPclr_next {s t : State} (h : execPclr s = .next t) :
    (s.err ≠ 0#8 ∧ t = s.answerLatched) ∨ (s.err = 0#8 ∧ t = s.clearPoints.emit 0x00#8 0x00#8) := by
  rcases unlessFaulted_next h with h | ⟨he, h⟩
  · exact .inl h
  · injection h with h
    exact .inr ⟨he, h.symm⟩

/-- PPUSH (R74). -/
theorem execPpush_next {x y : Byte} {s t : State} (h : execPpush x y s = .next t) :
    (s.err ≠ 0#8 ∧ t = s.answerLatched) ∨
      (s.err = 0#8 ∧ (x = 0#8 ∧ t = s.raise .range ∨
        x ≠ 0#8 ∧ s.findX x s.np.toNat 0 = .ok true ∧ t = s.setDup.emit 0x00#8 0x01#8 ∨
        x ≠ 0#8 ∧ s.findX x s.np.toNat 0 = .ok false ∧ s.np.toNat ≠ 255 ∧ t = (s.pushPoint x y).emit 0x00#8 0x00#8)) := by
  rcases unlessFaulted_next h with h | ⟨he, h⟩
  · exact .inl h
  · refine .inr ⟨he, ?_⟩
    split at h
    · rename_i hx
      injection h with h
      exact .inl ⟨hx, h.symm⟩
    · rename_i hx
      obtain ⟨found, hf, h⟩ := withValue_next h
      cases found with
      | true =>
        injection h with h
        exact .inr (.inl ⟨hx, hf, h.symm⟩)
      | false =>
        rw [if_neg Bool.false_ne_true, storePoint] at h
        split at h
        · cases h
        · rename_i hn
          injection h with h
          exact .inr (.inr ⟨hx, hf, hn, h.symm⟩)

/-- LAGR (R79). -/
theorem execLagr_next {s t : State} (h : execLagr s = .next t) :
    (s.err ≠ 0#8 ∧ t = s.answerLatched) ∨
      (s.err = 0#8 ∧ (s.np.toNat < 2 ∧ t = s.raise .few ∨
        2 ≤ s.np.toNat ∧ ∃ r, s.lagrange0 = .ok r ∧ t = (s.setRes r).emit 0x00#8 r)) := by
  rcases unlessFaulted_next h with h | ⟨he, h⟩
  · exact .inl h
  · refine .inr ⟨he, ?_⟩
    split at h
    · rename_i hn
      injection h with h
      exact .inl ⟨hn, h.symm⟩
    · rename_i hn
      obtain ⟨r, hr, h⟩ := withValue_next h
      injection h with h
      exact .inr ⟨Nat.le_of_not_gt hn, r, hr, h.symm⟩

/-- What a step can do: wait, reset, perform the command a word decodes to, or take an illegal word. -/
theorem step_cases (s : State) :
    (s.cmd = [] ∧ step s = .next s) ∨
      (∃ rest, s.cmd = .reset :: rest ∧ step s = .next (s.setCmd rest).resetBlock) ∨
      (∃ w rest i, s.cmd = .command w :: rest ∧ decode w = .ok i ∧ step s = exec i (s.setCmd rest)) ∨
      (∃ w rest e, s.cmd = .command w :: rest ∧ decode w = .error e ∧ step s = takeIllegal (s.setCmd rest)) := by
  rcases hc : s.cmd with _ | ⟨_ | _, rest⟩
  · left
    exact ⟨rfl, by simp only [step, hc]⟩
  · rename_i w
    rcases hd : decode w with e | i
    · right; right; right
      exact ⟨w, rest, e, rfl, hd, by simp only [step, hc, hd]⟩
    · right; right; left
      exact ⟨w, rest, i, rfl, hd, by simp only [step, hc, hd]⟩
  · right; left
    exact ⟨rest, rfl, by simp only [step, hc]⟩

end Sys2Proof.Machine
end

