-- ==== Sys2Proof/Laws/PerInstr.lean ====
section
/-! SUPPORT. Statements about every command as syntax, one lemma per constructor. The family RowMatch: the encoding of a
command agrees with its row of the opcode map (spec/30_encoding.md R41). -/

namespace Sys2Proof

/-- Masks act field by field (R38). -/
theorem wordOf_and (op a b z m n k l : Byte) :
    wordOf op a b z &&& wordOf m n k l = wordOf (op &&& m) (a &&& n) (b &&& k) (z &&& l) := by
  change (op ++ a ++ b ++ z : BitVec (8 + 8 + 8 + 8)) &&& (m ++ n ++ k ++ l : BitVec (8 + 8 + 8 + 8)) = _
  rw [BitVec.and_append, BitVec.and_append, BitVec.and_append]
  rfl

namespace Laws.RowMatch

/-- The command has a row of R41 under its own mnemonic, and its word matches that row. -/
def Statement (i : Instr) : Prop :=
  ∃ r ∈ opcodeRows, r.mnemonic = i.mnemonic ∧ encode i &&& r.mask = r.pattern

/-- Format AB: the mask keeps op and z. -/
theorem maskAB (op a b : Byte) : wordOf op a b 0#8 &&& 0xFF0000FF = wordOf op 0#8 0#8 0#8 := by
  rw [show (0xFF0000FF : CommandWord) = wordOf 0xFF#8 0#8 0#8 0xFF#8 from rfl, wordOf_and,
    show op &&& 0xFF#8 = op from BitVec.and_allOnes]
  simp

/-- Format A: the mask keeps op, b and z. -/
theorem maskA (op a : Byte) : wordOf op a 0#8 0#8 &&& 0xFF00FFFF = wordOf op 0#8 0#8 0#8 := by
  rw [show (0xFF00FFFF : CommandWord) = wordOf 0xFF#8 0#8 0xFF#8 0xFF#8 from rfl, wordOf_and,
    show op &&& 0xFF#8 = op from BitVec.and_allOnes]
  simp

theorem nop : Statement .nop := ⟨_, .head _, rfl, rfl⟩

theorem rdcr (n : Byte) : Statement (.rdcr n) := ⟨_, .tail _ (.head _), rfl, maskA _ n⟩

theorem gfadd (a b : Byte) : Statement (.gfadd a b) := ⟨_, .tail _ (.tail _ (.head _)), rfl, maskAB _ a b⟩

theorem gfmul (a b : Byte) : Statement (.gfmul a b) :=
  ⟨⟨"GFMUL", 0x11000000, 0xFF0000FF⟩, by simp [opcodeRows], rfl, maskAB _ a b⟩

theorem gfexp (e : Byte) : Statement (.gfexp e) :=
  ⟨⟨"GFEXP", 0x12000000, 0xFF00FFFF⟩, by simp [opcodeRows], rfl, maskA _ e⟩

theorem gflog (e : Byte) : Statement (.gflog e) :=
  ⟨⟨"GFLOG", 0x13000000, 0xFF00FFFF⟩, by simp [opcodeRows], rfl, maskA _ e⟩

theorem cclr : Statement .cclr := ⟨⟨"CCLR", 0x20000000, 0xFFFFFFFF⟩, by simp [opcodeRows], rfl, rfl⟩

theorem cpush (c : Byte) : Statement (.cpush c) :=
  ⟨⟨"CPUSH", 0x21000000, 0xFF00FFFF⟩, by simp [opcodeRows], rfl, maskA _ c⟩

theorem peval (x : Byte) : Statement (.peval x) :=
  ⟨⟨"PEVAL", 0x22000000, 0xFF00FFFF⟩, by simp [opcodeRows], rfl, maskA _ x⟩

theorem split (n : Byte) : Statement (.split n) :=
  ⟨⟨"SPLIT", 0x23000000, 0xFF00FFFF⟩, by simp [opcodeRows], rfl, maskA _ n⟩

theorem pclr : Statement .pclr := ⟨⟨"PCLR", 0x30000000, 0xFFFFFFFF⟩, by simp [opcodeRows], rfl, rfl⟩

theorem ppush (x y : Byte) : Statement (.ppush x y) :=
  ⟨⟨"PPUSH", 0x31000000, 0xFF0000FF⟩, by simp [opcodeRows], rfl, maskAB _ x y⟩

theorem lagr : Statement .lagr := ⟨⟨"LAGR", 0x32000000, 0xFFFFFFFF⟩, by simp [opcodeRows], rfl, rfl⟩

end Laws.RowMatch

end Sys2Proof
end

