-- ==== Sys2Proof/Tests/Slice0.lean ====
section
/-! SUPPORT. Tests: expected values from spec/95_test_vectors.md (the vector is named) or worked out from a word's encoding,
and witnesses that the hypotheses of each statement can be met. -/

namespace Sys2Proof.Tests

open Sys2Proof.Machine

/-! ### Well-formedness and decoding -/

/-- The one check: RDCR's number (R42 (e)). -/
theorem test_wellFormed_refuses_register_5 : (Instr.rdcr 0x05#8).wellFormed = false := by decide

theorem test_wellFormed_accepts_register_4 : (Instr.rdcr 0x04#8).wellFormed = true := by decide

/-- R41, bit by bit: op 01, a 04, b 00, z 00. -/
theorem test_decode_rdcr : decode 0b00000001_00000100_00000000_00000000#32 = .ok (.rdcr 0x04#8) := by decide

/-- Op 00. -/
theorem test_decode_nop : decode 0b00000000_00000000_00000000_00000000#32 = .ok .nop := by decide

/-- Op 10, a 57, b 83. -/
theorem test_decode_gfadd : decode 0b00010000_01010111_10000011_00000000#32 = .ok (.gfadd 0x57#8 0x83#8) := by decide

/-- Op 11, a 02, b 80. -/
theorem test_decode_gfmul : decode 0b00010001_00000010_10000000_00000000#32 = .ok (.gfmul 0x02#8 0x80#8) := by decide

/-- Op 12, a 19. -/
theorem test_decode_gfexp : decode 0b00010010_00011001_00000000_00000000#32 = .ok (.gfexp 0x19#8) := by decide

/-- Op 13, a 1D. -/
theorem test_decode_gflog : decode 0b00010011_00011101_00000000_00000000#32 = .ok (.gflog 0x1D#8) := by decide

/-- Op 20. -/
theorem test_decode_cclr : decode 0b00100000_00000000_00000000_00000000#32 = .ok .cclr := by decide

/-- Op 21, a DE. -/
theorem test_decode_cpush : decode 0b00100001_11011110_00000000_00000000#32 = .ok (.cpush 0xDE#8) := by decide

/-- Op 22, a 02. -/
theorem test_decode_peval : decode 0b00100010_00000010_00000000_00000000#32 = .ok (.peval 0x02#8) := by decide

/-- Op 23, a FF. -/
theorem test_decode_split : decode 0b00100011_11111111_00000000_00000000#32 = .ok (.split 0xFF#8) := by decide

/-- Op 30. -/
theorem test_decode_pclr : decode 0b00110000_00000000_00000000_00000000#32 = .ok .pclr := by decide

/-- Op 31, a 02, b 58. -/
theorem test_decode_ppush : decode 0b00110001_00000010_01011000_00000000#32 = .ok (.ppush 0x02#8 0x58#8) := by decide

/-- Op 32. -/
theorem test_decode_lagr : decode 0b00110010_00000000_00000000_00000000#32 = .ok .lagr := by decide

/-- E3: form before values, unassigned opcodes at both ends of the gaps, register number 5. -/
theorem test_decode_illegal :
    [0x00000001#32, 0x00010000#32, 0x01050000#32, 0x02000000#32, 0x0f000000#32, 0x10578301#32, 0x12190100#32,
     0x13000100#32, 0x14000000#32, 0x20000100#32, 0x22000100#32, 0x24000000#32, 0x31000001#32, 0x32010000#32,
     0x33000000#32, 0xffffffff#32].all (fun w => !(decode w).isOk) = true := by decide

/-- `decodeTableWord` reads bit k of its number as bit k of the word. -/
theorem test_decodeTableWord : decodeTableWord 32 0x31025800 = some (.ppush 0x02#8 0x58#8) := by decide

/-! ### The tables -/

/-- R25's facts and C1: EXPS[8] = 1D, EXPS[254] = 8E, EXPS[255] = 01, LOGS[1] = FF, LOGS[2] = 01, LOGS[8E] = FE. -/
theorem test_constructed_tables :
    [State.reset.expAt 8#8, State.reset.expAt 254#8, State.reset.expAt 255#8, State.reset.log 0x01#8 (by decide),
     State.reset.log 0x02#8 (by decide), State.reset.log 0x8E#8 (by decide)] =
      [0x1D#8, 0x8E#8, 0x01#8, 0xFF#8, 0x01#8, 0xFE#8] := by decide +kernel

/-! ### One command each, from small states -/

/-- The tables as R25 prints them, for tests that need products. -/
def listedExps : Vector Byte 256 := ⟨(expsListing.map (BitVec.ofNat 8)).toArray, by decide +kernel⟩

def listedLogs : Vector Byte 255 := ⟨(logsListing.map (BitVec.ofNat 8)).toArray, by decide +kernel⟩

/-- A block with these coefficients and points loaded, RES 00, no fault, nothing emitted. -/
def loaded (coeffs xs ys : List Byte) : State :=
  { State.reset with
    exps := listedExps, logs := listedLogs
    coef := Memory.ofBytes coeffs, kc := BitVec.ofNat 8 coeffs.length
    px := Memory.ofBytes xs, py := Memory.ofBytes ys, np := BitVec.ofNat 8 xs.length }

/-- The same after a fault latched code c. -/
def faulted (c : Byte) : State := { loaded [] [] [] with err := c }

/-- The words emitted and RES, DUP and ERR after. -/
def seen : Result → Option (List ResponseWord × Byte × Bool × Byte)
  | .next t => some (t.rsp, t.res, t.dup, t.err)
  | .fault _ => none
  | .refused _ => none

/-- KC and the coefficients after. -/
def seenCoef : Result → Option (Byte × Memory)
  | .next t => some (t.kc, t.coef)
  | .fault _ => none
  | .refused _ => none

/-- NP and the points after. -/
def seenPoints : Result → Option (Byte × Memory × Memory)
  | .next t => some (t.np, t.px, t.py)
  | .fault _ => none
  | .refused _ => none

/-- X1. -/
theorem test_nop : seen (exec .nop (loaded [] [] [])) = some ([0x0000#16], 0x00#8, false, 0x00#8) := by decide +kernel

/-- X13: not performed in the fault state. -/
theorem test_nop_in_fault : seen (exec .nop (faulted 0x06#8)) = some ([0x0600#16], 0x00#8, false, 0x06#8) := by
  decide +kernel

/-- X15: STATUS.FLT is bit 1, and RDCR runs in the fault state. -/
theorem test_rdcr_status : seen (exec (.rdcr 0x00#8) (faulted 0x06#8)) = some ([0x0002#16], 0x00#8, false, 0x06#8) := by
  decide +kernel

/-- P3: STATUS reads 0001 after an ignored duplicate. -/
theorem test_rdcr_dup :
    seen (exec (.rdcr 0x00#8) { loaded [] [] [] with dup := true }) = some ([0x0001#16], 0x00#8, true, 0x00#8) := by
  decide +kernel

/-- F1. -/
theorem test_gfadd : seen (exec (.gfadd 0x57#8 0x83#8) (loaded [] [] [])) = some ([0x00d4#16], 0xd4#8, false, 0x00#8) := by
  decide +kernel

/-- F12: the sum of logarithms wraps mod 255, not mod 256. -/
theorem test_gfmul : seen (exec (.gfmul 0x53#8 0xCA#8) (loaded [] [] [])) = some ([0x008f#16], 0x8f#8, false, 0x00#8) := by
  decide +kernel

/-- F7: the zero case. -/
theorem test_gfmul_zero : seen (exec (.gfmul 0x57#8 0x00#8) (loaded [] [] [])) = some ([0x0000#16], 0x00#8, false, 0x00#8) := by
  decide +kernel

/-- F26. -/
theorem test_gfexp : seen (exec (.gfexp 0x19#8) (loaded [] [] [])) = some ([0x0003#16], 0x03#8, false, 0x00#8) := by
  decide +kernel

/-- F13: LOGS[1] is 255. -/
theorem test_gflog_one : seen (exec (.gflog 0x01#8) (loaded [] [] [])) = some ([0x00ff#16], 0xff#8, false, 0x00#8) := by
  decide +kernel

/-- F32: LOG0. -/
theorem test_gflog_zero : seen (exec (.gflog 0x00#8) (loaded [] [] [])) = some ([0x0200#16], 0x00#8, false, 0x02#8) := by
  decide +kernel

/-- S12. -/
theorem test_cclr : seenCoef (exec .cclr (loaded [1#8, 2#8, 3#8] [] [])) = some (0x00#8, []) := by decide +kernel

/-- The coefficient goes to COEF[KC]. -/
theorem test_cpush : seenCoef (exec (.cpush 0x17#8) (loaded [0xDE#8] [] [])) = some (0x02#8, [(0, 0xDE#8), (1, 0x17#8)]) := by
  decide +kernel

/-- S14: FULL at KC = 255, nothing stored. -/
theorem test_cpush_full :
    seen (exec (.cpush 0x07#8) { loaded [] [] [] with kc := 0xFF#8 }) = some ([0x0500#16], 0x00#8, false, 0x05#8) := by
  decide +kernel

/-- S4: the highest X, over three coefficients. -/
theorem test_peval :
    seen (exec (.peval 0xFF#8) (loaded [0xDE#8, 0x17#8, 0x2A#8] [] [])) = some ([0x00d9#16], 0xd9#8, false, 0x00#8) := by
  decide +kernel

/-- X4: RANGE before EMPTY. -/
theorem test_peval_range : seen (exec (.peval 0x00#8) (loaded [] [] [])) = some ([0x0300#16], 0x00#8, false, 0x03#8) := by
  decide +kernel

/-- S2: five words in rising X, RES the last. -/
theorem test_split :
    seen (exec (.split 0x05#8) (loaded [0xDE#8, 0x17#8, 0x2A#8] [] [])) =
      some ([0x00e3#16, 0x0058#16, 0x0065#16, 0x0018#16, 0x0025#16], 0x25#8, false, 0x00#8) := by decide +kernel

/-- X8: KN, no Y emitted. -/
theorem test_split_kn :
    seen (exec (.split 0x02#8) (loaded [1#8, 2#8, 3#8] [] [])) = some ([0x0700#16], 0x00#8, false, 0x07#8) := by
  decide +kernel

/-- L19. -/
theorem test_pclr : seenPoints (exec .pclr (loaded [] [0x02#8] [0x58#8])) = some (0x00#8, [], []) := by decide +kernel

/-- A second point goes to index 1 (R74). -/
theorem test_ppush :
    seenPoints (exec (.ppush 0x04#8 0x18#8) (loaded [] [0x02#8] [0x58#8])) =
      some (0x02#8, [(0, 0x02#8), (1, 0x04#8)], [(0, 0x58#8), (1, 0x18#8)]) := by decide +kernel

/-- L18: a repeated X with another Y is ignored. -/
theorem test_ppush_duplicate :
    seen (exec (.ppush 0x02#8 0x99#8) (loaded [] [0x02#8] [0x58#8])) = some ([0x0001#16], 0x00#8, true, 0x00#8) := by
  decide +kernel

/-- L12: the largest intermediate there can be, and log(1) = 255. -/
theorem test_lagr :
    seen (exec .lagr (loaded [] [0x03#8, 0x01#8] [0x01#8, 0x10#8])) = some ([0x0096#16], 0x96#8, false, 0x00#8) := by
  decide +kernel

/-- L13: zero Y is skipped, the smallest intermediate. -/
theorem test_lagr_zero_y :
    seen (exec .lagr (loaded [] [0x03#8, 0x04#8, 0x02#8] [0xC8#8, 0x00#8, 0x00#8])) =
      some ([0x0002#16], 0x02#8, false, 0x00#8) := by decide +kernel

/-! ### The step -/

/-- E3: an illegal word raises ILLEGAL. -/
theorem test_step_illegal :
    seen (step ((loaded [] [] []).withFetchWord 32 0x02000000)) = some ([0x0100#16], 0x00#8, false, 0x01#8) := by
  decide +kernel

/-- X16: in the fault state the first code stays. -/
theorem test_step_illegal_in_fault :
    seen (step ((faulted 0x06#8).withFetchWord 32 0x01050000)) = some ([0x0600#16], 0x00#8, false, 0x06#8) := by
  decide +kernel

/-- X18: reset leaves the fault state and keeps the response stream. -/
theorem test_step_reset :
    seen (step { faulted 0x06#8 with cmd := [.reset], rsp := [0x0600#16] }) = some ([0x0600#16], 0x00#8, false, 0x00#8) := by
  decide +kernel

/-! ### Host side -/

/-- R88: the first character of a pair is the high half. -/
theorem test_hexToBytes : hexToBytes false ['d', 'e', '0', '5'] = .ok [0xDE#8, 0x05#8] := by decide

/-- T8: odd length. -/
theorem test_hexToBytes_odd : hexToBytes false ['a', 'b', 'c'] = .error .oddLength := by decide

/-- T8: `combine(["01aa"])`, a single share. -/
theorem test_single_share : readShares false [['0', '1', 'a', 'a']] = .error .tooFewShares := by decide

/-- R91: a zero byte is drawn again, once with a cap of one redraw. -/
theorem test_draw_redraws_zero : drawCoefficient 1 [0x00#8, 0x17#8] = some (0x17#8, []) := by decide

/-- R91 with a cap of no redraw: one draw is made, and a zero byte ends it. -/
theorem test_draw_without_redraw :
    drawCoefficient 0 [0x17#8] = some (0x17#8, []) ∧ drawCoefficient 0 [0x00#8, 0x17#8] = none := by decide

/-- R47: a register name as RDCR's operand. -/
theorem test_assemble_register : assembleLine ['R', 'D', 'C', 'R', ' ', 'R', 'E', 'S'] = some (some 0x01040000) := by
  decide

/-! ### Witnesses: the hypotheses of each statement can be met -/

theorem witness_DecodeOfEncode : (Instr.rdcr 0x04#8).wellFormed = true := by decide

theorem witness_OnlyEncodingsDecode : decode 0x01040000#32 = .ok (.rdcr 0x04#8) := by decide

theorem witness_OpcodeRowsSelectCommands :
    ∃ r ∈ opcodeRows, 0x32000000#32 &&& r.mask = r.pattern ∧ decode 0x32000000#32 = .ok .lagr := by decide

theorem witness_StepPerformsDecodedCommand :
    ((loaded [] [] []).withFetchWord 32 0x10578300).cmd = [.command 0x10578300] ∧
      decode 0x10578300#32 = .ok (.gfadd 0x57#8 0x83#8) := by decide

theorem witness_IllegalWordRaisesIllegal :
    (State.reset.setCmd [.command 0x33000000]).cmd = [.command 0x33000000] ∧
      decode 0x33000000#32 = .error .opcode ∧ (State.reset.setCmd [.command 0x33000000]).err = 0x00#8 := by decide

theorem witness_FaultEntryWritesOnlyErr :
    ∃ t, (State.reset.setCmd [.command 0x33000000]).cmd = .command 0x33000000 :: [] ∧
      (State.reset.setCmd [.command 0x33000000]).err = 0x00#8 ∧
      step (State.reset.setCmd [.command 0x33000000]) = .next t ∧ t.err ≠ 0x00#8 :=
  ⟨_, rfl, rfl, rfl, by decide⟩

theorem witness_ResetActionRestoresResetState :
    ({ faulted 0x06#8 with cmd := [.reset] } : State).cmd = .reset :: [] := rfl

theorem witness_WaitsForTheHost : State.reset.cmd = [] := rfl

/-- StepKeepsInv, GoodStateNeverStops, StepKeepsCanonicalForm: reset is good, and it steps. -/
theorem witness_StepKeepsInv : State.reset.Inv ∧ step State.reset = .next State.reset :=
  ⟨⟨⟨State.reset_exps, State.reset_logs⟩, rfl, ⟨rfl, rfl⟩, ⟨List.nodup_nil, List.not_mem_nil⟩, by decide⟩, rfl⟩

theorem witness_StepKeepsCanonicalForm :
    State.reset.coef.wf = true ∧ State.reset.px.wf = true ∧ State.reset.py.wf = true ∧
      step State.reset = .next State.reset := ⟨rfl, rfl, rfl, rfl⟩

theorem witness_ResponseStreamOnlyGrows :
    ∃ t, step (State.reset.setCmd [.command 0x00000000]) = .next t := ⟨_, rfl⟩

/-- ResponseWordCount, the frames: each kind of command answers a next state. -/
theorem witness_exec_answers :
    (∃ t, exec .nop State.reset = .next t) ∧ (∃ t, exec (.rdcr 0x04#8) State.reset = .next t) ∧
      (∃ t, exec (.gfadd 1#8 2#8) State.reset = .next t) ∧ (∃ t, exec .lagr State.reset = .next t) ∧
      (∃ t, exec .cclr State.reset = .next t) ∧ (∃ t, exec (.cpush 1#8) State.reset = .next t) ∧
      (∃ t, exec .pclr State.reset = .next t) ∧ (∃ t, exec (.ppush 1#8 2#8) State.reset = .next t) :=
  ⟨⟨_, rfl⟩, ⟨_, rfl⟩, ⟨_, rfl⟩, ⟨_, rfl⟩, ⟨_, rfl⟩, ⟨_, rfl⟩, ⟨_, rfl⟩, ⟨_, rfl⟩⟩

/-- The clauses 'err = 0' and LatchedInFault's 'err ≠ 0', for every command. -/
theorem witness_fault_gate : State.reset.err = 0x00#8 ∧ (faulted 0x07#8).err ≠ 0x00#8 := by decide

/-- RdcrReadsControlRegisters and IllegalWordRaisesIllegal: a malformed RDCR word, number 5, with ERR zero and nonzero. -/
theorem witness_RdcrReadsControlRegisters :
    ((loaded [] [] []).withFetchWord 32 0x01050000).cmd = .command (wordOf 0x01#8 0x05#8 0#8 0#8) :: [] ∧
      ((loaded [] [] []).withFetchWord 32 0x01050000).err = 0#8 ∧
      ((faulted 0x06#8).withFetchWord 32 0x01050000).cmd = .command (wordOf 0x01#8 0x05#8 0#8 0#8) :: [] ∧
      ((faulted 0x06#8).withFetchWord 32 0x01050000).err ≠ 0#8 := by decide

/-- Clause boundaries of the forms: the smallest nonzero must-be-zero field. -/
theorem witness_forms : (0x01#8 : Byte) ≠ 0#8 ∧ (0x05#8 : Byte) > 0x04#8 ∧ (0x04#8 : Byte) ≤ 0x04#8 := by decide

/-- GfmulByLogarithms, GflogReadsLogs: zero and nonzero operands. -/
theorem witness_GfmulByLogarithms : ((0#8 : Byte) = 0#8 ∨ (1#8 : Byte) = 0#8) ∧ (1#8 : Byte) ≠ 0#8 := by decide

/-- GfmulIsReducedCarrylessProduct, FieldLaws, the corner cases of GFMUL, GFEXP, GFLOG and PEVAL, HornerIsPolynomialValue. -/
theorem witness_TablesBuilt : State.reset.TablesBuilt ∧ (0x8E#8 : Byte) ≠ 0#8 :=
  ⟨⟨State.reset_exps, State.reset_logs⟩, by decide⟩

theorem witness_OnlyGflogShowsLog1 : Instr.lagr ≠ .gflog 0x01#8 ∧ Instr.gflog 0x02#8 ≠ .gflog 0x01#8 := by decide

/-- CpushAppendsCoefficient: both clauses, at KC = 255 and KC = 254. -/
theorem witness_CpushAppendsCoefficient :
    ({ State.reset with kc := 0xFF#8 } : State).kc = 0xFF#8 ∧ ({ State.reset with kc := 0xFE#8 } : State).kc ≠ 0xFF#8 := by
  decide

/-- PevalEvaluatesPolynomial: the value at X = 1 and X = FF, and the empty buffer. -/
theorem witness_PevalEvaluatesPolynomial :
    ((loaded [1#8, 2#8, 3#8] [] []).err = 0#8 ∧ (1#8 : Byte) ≠ 0#8 ∧ (0xFF#8 : Byte) ≠ 0#8 ∧
      (loaded [1#8, 2#8, 3#8] [] []).kc ≠ 0#8 ∧ (loaded [1#8, 2#8, 3#8] [] []).CoefHeld) ∧
    (loaded [] [] []).err = 0#8 ∧ (loaded [] [] []).kc = 0#8 := by decide

/-- SplitEmitsAllShares and SplitIsPevalSequence: N = KC completes, N = KC - 1 is the clause KN. -/
theorem witness_SplitEmitsAllShares :
    ((loaded [1#8, 2#8, 3#8] [] []).err = 0#8 ∧ (3#8 : Byte) ≠ 0#8 ∧ (loaded [1#8, 2#8, 3#8] [] []).kc ≠ 0#8 ∧
      (loaded [1#8, 2#8, 3#8] [] []).kc ≤ 3#8 ∧ (loaded [1#8, 2#8, 3#8] [] []).CoefHeld) ∧
    (2#8 : Byte) ≠ 0#8 ∧ (loaded [1#8, 2#8, 3#8] [] []).kc > 2#8 := by decide

theorem witness_OneCoefficientIsConstant :
    (loaded [0xAB#8] [] []).err = 0#8 ∧ (loaded [0xAB#8] [] []).kc = 1#8 ∧
      (loaded [0xAB#8] [] []).coef = Memory.ofBytes [0xAB#8] := by decide

/-- PpushStoresNewPoint: X held, and X not held. -/
theorem witness_PpushStoresNewPoint :
    (loaded [] [0x02#8] [0x58#8]).err = 0#8 ∧ (loaded [] [0x02#8] [0x58#8]).PointsHeld ∧
      (loaded [] [0x02#8] [0x58#8]).PointsDistinct ∧ 0x02#8 ∈ (loaded [] [0x02#8] [0x58#8]).xs ∧
      0xFF#8 ∉ (loaded [] [0x02#8] [0x58#8]).xs := by decide

/-- Two points of AB + 02·x, at X = 7 and X = 9, with the constructed tables. -/
def line : State :=
  { State.reset with px := Memory.ofBytes [7#8, 9#8], py := Memory.ofBytes [0xA5#8, 0xB9#8], np := 2#8 }

/-- LagrFollowsTheLoop: NP = 2 and NP = 1. -/
theorem witness_LagrFollowsTheLoop :
    line.err = 0#8 ∧ line.np ≥ 2#8 ∧ line.PointsHeld ∧ line.PointsDistinct ∧ ({ line with np := 1#8 } : State).np < 2#8 :=
  ⟨rfl, by decide, by decide, by decide, by decide⟩

theorem witness_LoopIsLagrangeFormula :
    line.TablesBuilt ∧ 2 ≤ line.points.length ∧ (line.points.map Prod.fst).Nodup ∧ 0#8 ∉ line.points.map Prod.fst :=
  ⟨⟨State.reset_exps, State.reset_logs⟩, by decide, by decide, by decide⟩

/-- LagrIgnoresPointOrder: two points in both orders. -/
theorem witness_LagrIgnoresPointOrder :
    (loaded [] [1#8, 2#8] [5#8, 6#8]).PointsHeld ∧ (loaded [] [1#8, 2#8] [5#8, 6#8]).PointsDistinct ∧
      (loaded [] [2#8, 1#8] [6#8, 5#8]).PointsHeld ∧ (loaded [] [2#8, 1#8] [6#8, 5#8]).PointsDistinct ∧
      (loaded [] [1#8, 2#8] [5#8, 6#8]).np ≥ 2#8 ∧ (loaded [] [2#8, 1#8] [6#8, 5#8]).np ≥ 2#8 ∧
      (loaded [] [1#8, 2#8] [5#8, 6#8]).points.Perm (loaded [] [2#8, 1#8] [6#8, 5#8]).points ∧
      (loaded [] [1#8, 2#8] [5#8, 6#8]).err = 0#8 ∧ (loaded [] [2#8, 1#8] [6#8, 5#8]).err = 0#8 :=
  ⟨by decide, by decide, by decide, by decide, by decide, by decide, List.Perm.swap _ _ _, rfl, rfl⟩

theorem line_values :
    [7#8, 9#8].map (line.hornerValue [0xAB#8, 0x02#8]) = [0xA5#8, 0xB9#8] := by decide +kernel

theorem line_points : ∀ p ∈ line.points, p.2 = line.hornerValue [0xAB#8, 0x02#8] p.1 :=
  List.forall_mem_cons.2 ⟨(List.cons_eq_cons.1 line_values).1.symm,
    List.forall_mem_cons.2 ⟨(List.cons_eq_cons.1 (List.cons_eq_cons.1 line_values).2).1.symm, List.forall_mem_nil _⟩⟩

/-- LagrRecoversSecretByte. -/
theorem witness_LagrRecoversSecretByte :
    line.TablesBuilt ∧ line.err = 0#8 ∧ line.np ≥ 2#8 ∧ line.PointsHeld ∧ line.PointsDistinct ∧
      [0xAB#8, 0x02#8].length ≤ line.np.toNat ∧ ∀ p ∈ line.points, p.2 = line.hornerValue [0xAB#8, 0x02#8] p.1 :=
  ⟨⟨State.reset_exps, State.reset_logs⟩, rfl, by decide, by decide, by decide, by decide, line_points⟩

theorem witness_SplitAndCombineSidesAreSeparate :
    (∃ a, Instr.cpush 1#8 = .cpush a) ∧ (∃ x y, Instr.ppush 1#8 2#8 = .ppush x y) := ⟨⟨_, rfl⟩, ⟨_, _, rfl⟩⟩

theorem witness_OnlyRdcrReadsRes : Instr.rdcr 0x03#8 ≠ .rdcr 0x04#8 := by decide

theorem witness_CoefficientsLeaveOnlyByEvaluation : ∀ x, Instr.cclr ≠ .peval x := by decide

theorem witness_CommandsRaiseTheirFaults :
    ∃ t, exec (.gflog 0#8) State.reset = .next t ∧ (Instr.gflog 0#8).wellFormed = true ∧ State.reset.err = 0#8 ∧
      t.err ≠ 0#8 := ⟨_, rfl, rfl, rfl, by decide⟩

/-- FaultStateAnswersLatchedCode: a legal RDCR, and a word that is not one. -/
theorem witness_FaultStateAnswersLatchedCode :
    decode 0x01040000#32 = .ok (.rdcr 0x04#8) ∧ ctrlRegOf 0x04#8 = some .res ∧ (∀ n, decode 0x00000000#32 ≠ .ok (.rdcr n)) ∧
      ((faulted 0x06#8).withFetchWord 32 0x01040000).cmd = [.command 0x01040000] ∧
      ((faulted 0x06#8).withFetchWord 32 0x01040000).err ≠ 0#8 :=
  ⟨by decide, by decide, by decide, by decide, by decide⟩

theorem witness_FaultStateIsFrozenUntilReset :
    (faulted 0x06#8).err ≠ 0#8 ∧ HostAction.reset ∉ ((faulted 0x06#8).withFetchWord 32 0).cmd ∧
      (runSteps 1 ((faulted 0x06#8).withFetchWord 32 0)).isSome = true := by decide

theorem witness_ShareWireForm : (⟨0x01#8, [0xAA#8]⟩ : Share).id ≠ 0#8 := by decide

theorem witness_DrawnCoefficientsAreNonzero :
    drawCoefficients 1 2 [0x00#8, 0x17#8, 0x2A#8] = some ([0x17#8, 0x2A#8], []) ∧ (0x17#8 : Byte) ≠ 0#8 := by decide

theorem witness_GenerateCommandCount :
    (1 : Nat) ≤ 2 ∧ ∀ p ∈ [((0xDE#8 : Byte), [(0x17#8 : Byte)])], p.2.length = 2 - 1 := by decide

theorem witness_AcceptedSharesAreUsable :
    readShares false [['0', '1', 'a', 'a'], ['0', '2', 'b', 'b']] = .ok [⟨0x01#8, [0xAA#8]⟩, ⟨0x02#8, [0xBB#8]⟩] := by
  decide

end Sys2Proof.Tests
end

section
/-! The step on a command word that decodes (spec/00_scope.md R5, spec/30_encoding.md R37). -/

namespace Sys2Proof.Machine

/-- R5, R37: the word at the head of CMD is taken off, then its command is performed. -/
theorem step_of_decode_ok {s : State} {w : CommandWord} {rest : List HostAction} {i : Instr}
    (hcmd : s.cmd = .command w :: rest) (hdec : decode w = .ok i) : step s = exec i (s.setCmd rest) := by
  simp only [step, hcmd, hdec]

/-- Settles O13: the state the command starts from is the one `State.setCmd` names. -/
theorem stepPerformsDecodedCommand : Obligations.StepPerformsDecodedCommand := by
  intro s w rest i hcmd hdec
  exact step_of_decode_ok hcmd hdec

end Sys2Proof.Machine
end

section
/-! What a command or a step does to the state, said once: it changes only the outputs RES, ERR and RSP, or it is one of
the five updates of the buffers (spec/10_state.md R10). The invariants and the frames below are read off this list. -/

namespace Sys2Proof.Machine

/-- Nothing but RES, ERR and the response stream differs, and ERR differs only by taking a fault code (R98, R100). -/
structure OutputOnly (s t : State) : Prop where
  frame : t = { s with res := t.res, err := t.err, rsp := t.rsp }
  err : t.err = s.err ∨ ∃ f : FaultCode, t.err = f.code

theorem answerLatched_outputOnly (s : State) : OutputOnly s s.answerLatched := ⟨rfl, .inl rfl⟩

theorem raise_outputOnly (s : State) (f : FaultCode) : OutputOnly s (s.raise f) := ⟨rfl, .inr ⟨f, rfl⟩⟩

theorem emit_outputOnly (s : State) (code data : Byte) : OutputOnly s (s.emit code data) := ⟨rfl, .inl rfl⟩

theorem setRes_emit_outputOnly (s : State) (r code data : Byte) : OutputOnly s ((s.setRes r).emit code data) :=
  ⟨rfl, .inl rfl⟩

theorem emitAll_setRes_outputOnly (s : State) (data : List Byte) (r : Byte) :
    OutputOnly s ((s.emitAll data).setRes r) := ⟨rfl, .inl rfl⟩

theorem takeIllegal_outputOnly {s t : State} (h : takeIllegal s = .next t) : OutputOnly s t := by
  rcases takeIllegal_next h with ⟨-, rfl⟩ | ⟨-, rfl⟩
  · exact answerLatched_outputOnly s
  · exact raise_outputOnly s _

theorem execNop_outputOnly {s t : State} (h : execNop s = .next t) : OutputOnly s t := by
  rcases execNop_next h with ⟨-, rfl⟩ | ⟨-, rfl⟩
  · exact answerLatched_outputOnly s
  · exact emit_outputOnly s _ _

theorem execRdcr_outputOnly {n : Byte} {s t : State} (h : execRdcr n s = .next t) : OutputOnly s t := by
  rcases execRdcr_next h with ⟨r, -, rfl⟩ | ⟨-, h⟩
  · exact emit_outputOnly s _ _
  · exact takeIllegal_outputOnly h

/-- GFADD, GFMUL and GFEXP have this form. -/
theorem gated_finishing_outputOnly {r : Byte} {s t : State} (h : unlessFaulted s (finishing r s) = .next t) :
    OutputOnly s t := by
  rcases gated_finishing_next h with ⟨-, rfl⟩ | ⟨-, rfl⟩
  · exact answerLatched_outputOnly s
  · exact setRes_emit_outputOnly s _ _ _

theorem execGflog_outputOnly {e : Byte} {s t : State} (h : execGflog e s = .next t) : OutputOnly s t := by
  rcases execGflog_next h with ⟨-, rfl⟩ | ⟨-, ⟨-, rfl⟩ | ⟨he, rfl⟩⟩
  · exact answerLatched_outputOnly s
  · exact raise_outputOnly s _
  · exact setRes_emit_outputOnly s _ _ _

theorem execPeval_outputOnly {x : Byte} {s t : State} (h : execPeval x s = .next t) : OutputOnly s t := by
  rcases execPeval_next h with ⟨-, rfl⟩ | ⟨-, ⟨-, rfl⟩ | ⟨-, -, rfl⟩ | ⟨-, -, r, -, rfl⟩⟩
  · exact answerLatched_outputOnly s
  · exact raise_outputOnly s _
  · exact raise_outputOnly s _
  · exact setRes_emit_outputOnly s _ _ _

theorem execSplit_outputOnly {n : Byte} {s t : State} (h : execSplit n s = .next t) : OutputOnly s t := by
  rcases execSplit_next h with ⟨-, rfl⟩ | ⟨-, ⟨-, rfl⟩ | ⟨-, -, rfl⟩ | ⟨-, -, -, rfl⟩ | ⟨-, -, -, ys, -, rfl⟩⟩
  · exact answerLatched_outputOnly s
  · exact raise_outputOnly s _
  · exact raise_outputOnly s _
  · exact raise_outputOnly s _
  · exact emitAll_setRes_outputOnly s _ _

theorem execLagr_outputOnly {s t : State} (h : execLagr s = .next t) : OutputOnly s t := by
  rcases execLagr_next h with ⟨-, rfl⟩ | ⟨-, ⟨-, rfl⟩ | ⟨-, r, -, rfl⟩⟩
  · exact answerLatched_outputOnly s
  · exact raise_outputOnly s _
  · exact setRes_emit_outputOnly s _ _ _

/-- All a command can do to the state: outputs only, or one update of a buffer under the guards that let it through. -/
inductive CommandEffect (s : State) : State → Prop where
  | outputOnly {t : State} (h : OutputOnly s t) : CommandEffect s t
  | clearCoef : CommandEffect s (s.clearCoef.emit 0x00#8 0x00#8)
  | pushCoef (a : Byte) (hk : s.kc.toNat ≠ 255) : CommandEffect s ((s.pushCoef a).emit 0x00#8 0x00#8)
  | clearPoints : CommandEffect s (s.clearPoints.emit 0x00#8 0x00#8)
  | setDup : CommandEffect s (s.setDup.emit 0x00#8 0x01#8)
  | pushPoint (x y : Byte) (hx : x ≠ 0#8) (hnew : s.findX x s.np.toNat 0 = .ok false) (hn : s.np.toNat ≠ 255) :
      CommandEffect s ((s.pushPoint x y).emit 0x00#8 0x00#8)

theorem execCclr_effect {s t : State} (h : execCclr s = .next t) : CommandEffect s t := by
  rcases execCclr_next h with ⟨-, rfl⟩ | ⟨-, rfl⟩
  · exact .outputOnly (answerLatched_outputOnly s)
  · exact .clearCoef

theorem execCpush_effect {a : Byte} {s t : State} (h : execCpush a s = .next t) : CommandEffect s t := by
  rcases execCpush_next h with ⟨-, rfl⟩ | ⟨-, ⟨-, rfl⟩ | ⟨hk, rfl⟩⟩
  · exact .outputOnly (answerLatched_outputOnly s)
  · exact .outputOnly (raise_outputOnly s _)
  · exact .pushCoef a hk

theorem execPclr_effect {s t : State} (h : execPclr s = .next t) : CommandEffect s t := by
  rcases execPclr_next h with ⟨-, rfl⟩ | ⟨-, rfl⟩
  · exact .outputOnly (answerLatched_outputOnly s)
  · exact .clearPoints

theorem execPpush_effect {x y : Byte} {s t : State} (h : execPpush x y s = .next t) : CommandEffect s t := by
  rcases execPpush_next h with ⟨-, rfl⟩ | ⟨-, ⟨-, rfl⟩ | ⟨-, -, rfl⟩ | ⟨hx, hnew, hn, rfl⟩⟩
  · exact .outputOnly (answerLatched_outputOnly s)
  · exact .outputOnly (raise_outputOnly s _)
  · exact .setDup
  · exact .pushPoint x y hx hnew hn

/-- Every command has one of the listed effects. -/
theorem exec_effect {i : Instr} {s t : State} (h : exec i s = .next t) : CommandEffect s t := by
  cases i with
  | nop => exact .outputOnly (execNop_outputOnly h)
  | rdcr n => exact .outputOnly (execRdcr_outputOnly h)
  | gfadd a b => exact .outputOnly (gated_finishing_outputOnly h)
  | gfmul a b => exact .outputOnly (gated_finishing_outputOnly h)
  | gfexp a => exact .outputOnly (gated_finishing_outputOnly h)
  | gflog a => exact .outputOnly (execGflog_outputOnly h)
  | cclr => exact execCclr_effect h
  | cpush a => exact execCpush_effect h
  | peval x => exact .outputOnly (execPeval_outputOnly h)
  | split n => exact .outputOnly (execSplit_outputOnly h)
  | pclr => exact execPclr_effect h
  | ppush x y => exact execPpush_effect h
  | lagr => exact .outputOnly (execLagr_outputOnly h)

/-- All a step can do: wait, reset the block, or have a command word's effect (R37). -/
theorem step_effect {s t : State} (h : step s = .next t) :
    t = s ∨ (∃ rest, t = (s.setCmd rest).resetBlock) ∨ ∃ rest, CommandEffect (s.setCmd rest) t := by
  rcases step_cases s with ⟨-, hs⟩ | ⟨rest, -, hs⟩ | ⟨w, rest, i, -, -, hs⟩ | ⟨w, rest, e, -, -, hs⟩ <;> rw [hs] at h
  · injection h with h
    exact .inl h.symm
  · injection h with h
    exact .inr (.inl ⟨rest, h.symm⟩)
  · exact .inr (.inr ⟨rest, exec_effect h⟩)
  · exact .inr (.inr ⟨rest, .outputOnly (takeIllegal_outputOnly h)⟩)

end Sys2Proof.Machine
end

section
/-! The invariant Inv (spec/10_state.md R11, R12, R15, R17, R19): it holds at reset and every step keeps it. -/

namespace Sys2Proof.Machine

/-- One more entry in a counter below 255 does not wrap (R13, R14). -/
theorem toNat_add_one_of_ne_255 {n : Byte} (h : n.toNat ≠ 255) : (n + 1).toNat = n.toNat + 1 := by
  have hlt := n.isLt
  rw [BitVec.toNat_add]
  exact Nat.mod_eq_of_lt (by simp; omega)

theorem OutputOnly.inv {s t : State} (h : OutputOnly s t) (hs : s.Inv) : t.Inv := by
  obtain ⟨hframe, herr⟩ := h
  obtain ⟨htab, hcoef, hpts, hdist, hlegal⟩ := hs
  have hlegal' : t.ErrLegal := by
    rcases herr with he | ⟨f, he⟩ <;> rw [State.ErrLegal, he]
    · exact hlegal
    · exact f.code_range.2.2
  rw [hframe]
  exact ⟨htab, hcoef, hpts, hdist, hlegal'⟩

theorem State.Inv.clearCoef {s : State} (h : s.Inv) : s.clearCoef.Inv := by
  obtain ⟨htab, -, hrest⟩ := h
  exact ⟨htab, rfl, hrest⟩

/-- COEF[KC] <- a, KC <- KC + 1 keeps exactly the valid elements listed (R65). -/
theorem State.Inv.pushCoef {s : State} (h : s.Inv) (a : Byte) (hk : s.kc.toNat ≠ 255) : (s.pushCoef a).Inv := by
  obtain ⟨htab, hcoef, hrest⟩ := h
  refine ⟨htab, ?_, hrest⟩
  rw [State.CoefHeld, State.pushCoef_kc, toNat_add_one_of_ne_255 hk]
  exact Memory.HoldsBelow.write hcoef a

theorem State.Inv.clearPoints {s : State} (h : s.Inv) : s.clearPoints.Inv := by
  obtain ⟨htab, hcoef, -, -, hlegal⟩ := h
  exact ⟨htab, hcoef, ⟨rfl, rfl⟩, by simp [State.PointsDistinct], hlegal⟩

/-- The search that answered no was over all the X coordinates held (R74). -/
theorem not_mem_xs_of_findX {s : State} (h : s.PointsHeld) {x : Byte} (hnew : s.findX x s.np.toNat 0 = .ok false) :
    x ∉ s.xs := by
  rw [State.findX_ok h.1 x s.np.toNat 0 (Nat.zero_add _)] at hnew
  simpa using hnew

/-- A stored point has a nonzero X that the buffer does not hold, so the X coordinates stay distinct (R15, R74). -/
theorem State.Inv.pushPoint {s : State} (h : s.Inv) {x : Byte} (y : Byte) (hx : x ≠ 0#8)
    (hnew : s.findX x s.np.toNat 0 = .ok false) (hn : s.np.toNat ≠ 255) : (s.pushPoint x y).Inv := by
  obtain ⟨htab, hcoef, hpts, ⟨hnodup, hnz⟩, hlegal⟩ := h
  have hmem := not_mem_xs_of_findX hpts hnew
  have hpx : (s.pushPoint x y).px.map Prod.snd = s.px.map Prod.snd ++ [x] := by
    rw [State.pushPoint_px, hpts.1.write_eq x, List.map_append]
    rfl
  refine ⟨htab, hcoef, ?_, ?_, hlegal⟩
  · rw [State.PointsHeld, State.pushPoint_np, toNat_add_one_of_ne_255 hn]
    exact ⟨hpts.1.write x, hpts.2.write y⟩
  · rw [State.PointsDistinct, hpx]
    refine ⟨?_, ?_⟩
    · exact List.Nodup.append hnodup (List.nodup_singleton x) (by simpa [State.xs] using hmem)
    · simpa [hx.symm] using hnz

/-- Every effect a command can have keeps the invariant. -/
theorem CommandEffect.inv {s t : State} (h : CommandEffect s t) (hs : s.Inv) : t.Inv := by
  cases h with
  | outputOnly h => exact h.inv hs
  | clearCoef => exact hs.clearCoef
  | pushCoef a hk => exact hs.pushCoef a hk
  | clearPoints => exact hs.clearPoints
  | setDup => exact hs
  | pushPoint x y hx hnew hn => exact hs.pushPoint y hx hnew hn

/-- Settles O3: the buffers are empty and the tables are the constructed ones. -/
theorem invHoldsAtReset : Obligations.InvHoldsAtReset :=
  ⟨⟨State.reset_exps, State.reset_logs⟩, rfl, ⟨rfl, rfl⟩, by simp [State.PointsDistinct], by decide⟩

/-- A reset restores the invariant from any state (R106). -/
theorem resetBlock_inv (s : State) : s.resetBlock.Inv := invHoldsAtReset

/-- Settles O17, by the effects a step can have. -/
theorem stepKeepsInv : Obligations.StepKeepsInv := by
  intro s t hs h
  rcases step_effect h with rfl | ⟨rest, rfl⟩ | ⟨rest, heff⟩
  · exact hs
  · exact resetBlock_inv _
  · exact heff.inv hs

end Sys2Proof.Machine
end

section
/-! The canonical form of the byte spaces (log entry 3), whatever else the state holds. -/

namespace Sys2Proof.Machine

/-- COEF, PX and PY are in canonical form. -/
def State.Canonical (s : State) : Prop := s.coef.wf = true ∧ s.px.wf = true ∧ s.py.wf = true

theorem OutputOnly.canonical {s t : State} (h : OutputOnly s t) (hs : s.Canonical) : t.Canonical := by
  rw [h.frame]
  exact hs

/-- Every effect a command can have keeps the canonical form: a space is kept, emptied or written at one index. -/
theorem CommandEffect.canonical {s t : State} (h : CommandEffect s t) (hs : s.Canonical) : t.Canonical := by
  obtain ⟨hcoef, hpx, hpy⟩ := hs
  cases h with
  | outputOnly h => exact h.canonical ⟨hcoef, hpx, hpy⟩
  | clearCoef => exact ⟨rfl, hpx, hpy⟩
  | pushCoef a hk => exact ⟨Memory.write_wf _ _ a hcoef, hpx, hpy⟩
  | clearPoints => exact ⟨hcoef, rfl, rfl⟩
  | setDup => exact ⟨hcoef, hpx, hpy⟩
  | pushPoint x y hx hnew hn => exact ⟨hcoef, Memory.write_wf _ _ x hpx, Memory.write_wf _ _ y hpy⟩

/-- Settles O18, by the effects a step can have. -/
theorem stepKeepsCanonicalForm : Obligations.StepKeepsCanonicalForm := by
  intro s t hcoef hpx hpy h
  rcases step_effect h with rfl | ⟨rest, rfl⟩ | ⟨rest, heff⟩
  · exact ⟨hcoef, hpx, hpy⟩
  · exact ⟨rfl, rfl, rfl⟩
  · exact heff.canonical ⟨hcoef, hpx, hpy⟩

end Sys2Proof.Machine
end

section
/-! From a good state no step stops (spec/10_state.md R15, R17): every engine finds its elements, and the point buffer has
room for a new X coordinate. -/

namespace Sys2Proof.Machine

theorem next_answers (t : State) : ∃ u, (.next t : Result) = .next u := ⟨t, rfl⟩

/-- A gated command answers when what it performs does (R101). -/
theorem unlessFaulted_answers {s : State} {r : Result} (h : ∃ t, r = .next t) : ∃ t, unlessFaulted s r = .next t := by
  by_cases he : s.err = 0#8
  · rwa [unlessFaulted_of_ok he]
  · exact ⟨_, unlessFaulted_of_fault he r⟩

theorem execRdcr_answers (n : Byte) (s : State) : ∃ t, execRdcr n s = .next t := by
  unfold execRdcr
  split
  · exact next_answers _
  · exact takeIllegal_answers s

theorem execGflog_answers (e : Byte) (s : State) : ∃ t, execGflog e s = .next t := by
  refine unlessFaulted_answers ?_
  split <;> exact next_answers _

theorem execCpush_answers (a : Byte) (s : State) : ∃ t, execCpush a s = .next t := by
  refine unlessFaulted_answers ?_
  split <;> exact next_answers _

/-- PEVAL reads only COEF[0..KC-1] (R66). -/
theorem execPeval_answers {s : State} (h : s.CoefHeld) (x : Byte) : ∃ t, execPeval x s = .next t := by
  refine unlessFaulted_answers ?_
  split
  · exact next_answers _
  · split
    · exact next_answers _
    · rw [State.horner_ok h, withValue_ok]
      exact next_answers _

/-- SPLIT reads only COEF[0..KC-1] (R69). -/
theorem execSplit_answers {s : State} (h : s.CoefHeld) (n : Byte) : ∃ t, execSplit n s = .next t := by
  refine unlessFaulted_answers ?_
  split
  · exact next_answers _
  · split
    · exact next_answers _
    · split
      · exact next_answers _
      · rw [State.evaluations_ok h, withValue_ok]
        exact next_answers _

/-- LAGR reads only points held, and no logarithm of zero (R75). -/
theorem execLagr_answers {s : State} (hp : s.PointsHeld) (hd : s.PointsDistinct) : ∃ t, execLagr s = .next t := by
  refine unlessFaulted_answers ?_
  split
  · exact next_answers _
  · obtain ⟨r, hr⟩ := State.lagrange0_answers hp hd
    rw [hr, withValue_ok]
    exact next_answers _

/-- R15's count: 0x00, a new nonzero X and the distinct nonzero X coordinates held are different bytes, and there are 256,
so the buffer holds at most 254 points. -/
theorem np_ne_255_of_new {s : State} (hp : s.PointsHeld) (hd : s.PointsDistinct) {x : Byte} (hx : x ≠ 0#8)
    (hnew : x ∉ s.xs) : s.np.toNat ≠ 255 := by
  have hlen : s.xs.length = s.np.toNat := hp.1.length_values
  have hnodup : (0#8 :: x :: s.xs).Nodup := by
    simp only [List.nodup_cons, List.mem_cons, not_or]
    exact ⟨⟨hx.symm, hd.2⟩, hnew, hd.1⟩
  have hcard : Fintype.card Byte = 2 ^ 8 :=
    (Fintype.card_congr BitVec.equivFin.toEquiv).trans (Fintype.card_fin _)
  have hle := hnodup.length_le_card
  rw [hcard, List.length_cons, List.length_cons] at hle
  omega

/-- Short of 255 points a new one is stored (R74). -/
theorem storePoint_of_room {s : State} (hn : s.np.toNat ≠ 255) (x y : Byte) :
    storePoint x y s = .next ((s.pushPoint x y).emit 0x00#8 0x00#8) := if_neg hn

/-- PPUSH finds the points it compares with, and room for a new one (R74). -/
theorem execPpush_answers {s : State} (hp : s.PointsHeld) (hd : s.PointsDistinct) (x y : Byte) :
    ∃ t, execPpush x y s = .next t := by
  refine unlessFaulted_answers ?_
  split
  · exact next_answers _
  · rename_i hx
    rw [State.findX_ok hp.1 x s.np.toNat 0 (Nat.zero_add _), withValue_ok, List.drop_zero]
    split
    · exact next_answers _
    · rename_i hnew
      exact ⟨_, storePoint_of_room (np_ne_255_of_new hp hd hx (by simpa using hnew)) x y⟩

/-- From a good state every command answers a next state. -/
theorem exec_answers {s : State} (h : s.Inv) (i : Instr) : ∃ t, exec i s = .next t := by
  obtain ⟨-, hcoef, hpts, hdist, -⟩ := h
  cases i with
  | nop => exact unlessFaulted_answers (next_answers _)
  | rdcr n => exact execRdcr_answers n s
  | gfadd a b => exact unlessFaulted_answers (next_answers _)
  | gfmul a b => exact unlessFaulted_answers (next_answers _)
  | gfexp a => exact unlessFaulted_answers (next_answers _)
  | gflog a => exact execGflog_answers a s
  | cclr => exact unlessFaulted_answers (next_answers _)
  | cpush a => exact execCpush_answers a s
  | peval x => exact execPeval_answers hcoef x
  | split n => exact execSplit_answers hcoef n
  | pclr => exact unlessFaulted_answers (next_answers _)
  | ppush x y => exact execPpush_answers hpts hdist x y
  | lagr => exact execLagr_answers hpts hdist

/-- Settles O19: waiting, a reset and an illegal word answer from any state, a command from a good one. -/
theorem goodStateNeverStops : Obligations.GoodStateNeverStops := by
  intro s h
  rcases step_cases s with ⟨-, hs⟩ | ⟨rest, -, hs⟩ | ⟨w, rest, i, -, -, hs⟩ | ⟨w, rest, e, -, -, hs⟩ <;> rw [hs]
  · exact next_answers s
  · exact next_answers _
  · exact exec_answers (s := s.setCmd rest) h i
  · exact takeIllegal_answers _

/-- Any number of steps from a good state reaches a good state. -/
theorem runSteps_good (k : Nat) {s : State} (h : s.Inv) : ∃ t, runSteps k s = some t ∧ t.Inv := by
  induction k generalizing s with
  | zero => exact ⟨s, rfl, h⟩
  | succ k ih =>
    obtain ⟨u, hu⟩ := goodStateNeverStops s h
    rw [runSteps, hu]
    exact ih (stepKeepsInv s u h hu)

/-- Settles O20: reset is good, whatever the host will present. -/
theorem everyRunStaysGood : Obligations.EveryRunStaysGood := by
  intro actions k
  exact runSteps_good k (s := State.reset.setCmd actions) invHoldsAtReset

end Sys2Proof.Machine
end

section
/-! The frames of the commands (spec/10_state.md R10, spec/20_memory.md R26). -/

namespace Sys2Proof.Machine

theorem takeIllegal_frame {s t : State} (h : takeIllegal s = .next t) : t = { s with err := t.err, rsp := t.rsp } := by
  rcases takeIllegal_next h with ⟨-, rfl⟩ | ⟨-, rfl⟩ <;> rfl

theorem execNop_frame {s t : State} (h : execNop s = .next t) : t = { s with err := t.err, rsp := t.rsp } := by
  rcases execNop_next h with ⟨-, rfl⟩ | ⟨-, rfl⟩ <;> rfl

theorem execRdcr_frame {n : Byte} {s t : State} (h : execRdcr n s = .next t) :
    t = { s with err := t.err, rsp := t.rsp } := by
  rcases execRdcr_next h with ⟨r, -, rfl⟩ | ⟨-, h⟩
  · rfl
  · exact takeIllegal_frame h

/-- Settles O47: the field commands, PEVAL, SPLIT and LAGR change only outputs, NOP and RDCR not even RES. -/
theorem readingCommandsFrame : Obligations.ReadingCommandsFrame := by
  intro i s t h
  constructor
  · rintro (rfl | ⟨n, rfl⟩)
    · exact execNop_frame h
    · exact execRdcr_frame h
  · rintro (⟨a, b, rfl⟩ | ⟨a, b, rfl⟩ | ⟨a, rfl⟩ | ⟨a, rfl⟩ | ⟨x, rfl⟩ | ⟨n, rfl⟩ | rfl)
    · exact (gated_finishing_outputOnly h).frame
    · exact (gated_finishing_outputOnly h).frame
    · exact (gated_finishing_outputOnly h).frame
    · exact (execGflog_outputOnly h).frame
    · exact (execPeval_outputOnly h).frame
    · exact (execSplit_outputOnly h).frame
    · exact (execLagr_outputOnly h).frame

theorem execCclr_frame {s t : State} (h : execCclr s = .next t) :
    t = { s with coef := t.coef, kc := t.kc, err := t.err, rsp := t.rsp } := by
  rcases execCclr_next h with ⟨-, rfl⟩ | ⟨-, rfl⟩ <;> rfl

theorem execCpush_frame {a : Byte} {s t : State} (h : execCpush a s = .next t) :
    t = { s with coef := t.coef, kc := t.kc, err := t.err, rsp := t.rsp } := by
  rcases execCpush_next h with ⟨-, rfl⟩ | ⟨-, ⟨-, rfl⟩ | ⟨-, rfl⟩⟩ <;> rfl

/-- CPUSH writes no element of COEF but number KC (R65). -/
theorem execCpush_read_other {a : Byte} {s t : State} (h : execCpush a s = .next t) {j : Nat} (hj : j ≠ s.kc.toNat) :
    t.coef.read j = s.coef.read j := by
  rcases execCpush_next h with ⟨-, rfl⟩ | ⟨-, ⟨-, rfl⟩ | ⟨-, rfl⟩⟩
  · rfl
  · rfl
  · exact Memory.read_write_other s.coef a hj

/-- Settles O48: the only write of an element is CPUSH's, at index KC. -/
theorem coefficientCommandsFrame : Obligations.CoefficientCommandsFrame := by
  rintro i s t h (rfl | ⟨a, rfl⟩)
  · refine ⟨execCclr_frame h, ?_⟩
    rintro ⟨a, ha⟩
    cases ha
  · exact ⟨execCpush_frame h, fun _ j hj => execCpush_read_other h hj⟩

theorem execPclr_frame {s t : State} (h : execPclr s = .next t) :
    t = { s with px := t.px, py := t.py, np := t.np, dup := t.dup, err := t.err, rsp := t.rsp } := by
  rcases execPclr_next h with ⟨-, rfl⟩ | ⟨-, rfl⟩ <;> rfl

theorem execPpush_frame {x y : Byte} {s t : State} (h : execPpush x y s = .next t) :
    t = { s with px := t.px, py := t.py, np := t.np, dup := t.dup, err := t.err, rsp := t.rsp } := by
  rcases execPpush_next h with ⟨-, rfl⟩ | ⟨-, ⟨-, rfl⟩ | ⟨-, -, rfl⟩ | ⟨-, -, -, rfl⟩⟩ <;> rfl

/-- PPUSH only ever sets DUP (R74). -/
theorem execPpush_keeps_dup {x y : Byte} {s t : State} (h : execPpush x y s = .next t) (hdup : s.dup = true) :
    t.dup = true := by
  rcases execPpush_next h with ⟨-, rfl⟩ | ⟨-, ⟨-, rfl⟩ | ⟨-, -, rfl⟩ | ⟨-, -, -, rfl⟩⟩
  · exact hdup
  · exact hdup
  · rfl
  · exact hdup

/-- PPUSH writes no element of PX and PY but number NP (R74). -/
theorem execPpush_read_other {x y : Byte} {s t : State} (h : execPpush x y s = .next t) {j : Nat}
    (hj : j ≠ s.np.toNat) : t.px.read j = s.px.read j ∧ t.py.read j = s.py.read j := by
  rcases execPpush_next h with ⟨-, rfl⟩ | ⟨-, ⟨-, rfl⟩ | ⟨-, -, rfl⟩ | ⟨-, -, -, rfl⟩⟩
  · exact ⟨rfl, rfl⟩
  · exact ⟨rfl, rfl⟩
  · exact ⟨rfl, rfl⟩
  · exact ⟨Memory.read_write_other s.px x hj, Memory.read_write_other s.py y hj⟩

/-- Settles O49: the only write of an element is PPUSH's, at index NP, and only PCLR clears DUP. -/
theorem pointCommandsFrame : Obligations.PointCommandsFrame := by
  rintro i s t h (rfl | ⟨x, y, rfl⟩)
  · refine ⟨execPclr_frame h, ?_⟩
    rintro ⟨x, y, hxy⟩
    cases hxy
  · exact ⟨execPpush_frame h, fun _ => ⟨execPpush_keeps_dup h, fun j hj => execPpush_read_other h hj⟩⟩

end Sys2Proof.Machine
end

section
/-! No command but RDCR 0x04 reads RES (spec/10_state.md R16). Outcomes are compared up to a change f of the next state; the
engines depend only on the tables and the buffers they name. -/

namespace Sys2Proof.Machine

/-! ### Outcomes that agree up to a change of the next state -/

/-- The two outcomes are the same after f is applied to the next state. -/
def AgreeUpTo (f : State → State) (p q : Result) : Prop := mapNext f p = mapNext f q

section

variable {f : State → State}

theorem AgreeUpTo.next {s t : State} (h : f s = f t) : AgreeUpTo f (.next s) (.next t) :=
  congrArg Host.Outcome.next h

/-- A choice by the same test. -/
theorem AgreeUpTo.ite {c : Prop} [Decidable c] {p p' q q' : Result} (hp : AgreeUpTo f p p') (hq : AgreeUpTo f q q') :
    AgreeUpTo f (if c then p else q) (if c then p' else q') := by
  split
  · exact hp
  · exact hq

/-- The same value, used by continuations that agree. -/
theorem AgreeUpTo.withValue {α : Type} {v w : Except Fault α} {k k' : α → Result} (hv : v = w)
    (h : ∀ x, AgreeUpTo f (k x) (k' x)) : AgreeUpTo f (withValue v k) (withValue w k') := by
  subst hv
  cases v with
  | ok x => exact h x
  | error e => rfl

/-- The gate, over states with the same ERR. -/
theorem AgreeUpTo.gate {s t : State} {p q : Result} (herr : s.err = t.err)
    (hlatched : f s.answerLatched = f t.answerLatched) (h : AgreeUpTo f p q) :
    AgreeUpTo f (unlessFaulted s p) (unlessFaulted t q) := by
  by_cases he : t.err = 0#8
  · rwa [unlessFaulted_of_ok he, unlessFaulted_of_ok (herr.trans he)]
  · rw [unlessFaulted_of_fault he, unlessFaulted_of_fault fun h0 => he (herr.symm.trans h0)]
    exact .next hlatched

end

/-! ### What the engines read -/

section

variable {s t : State}

theorem State.gfMul_congr (hexps : s.exps = t.exps) (hlogs : s.logs = t.logs) (a b : Byte) :
    s.gfMul a b = t.gfMul a b := by
  simp only [State.gfMul, State.expMod, State.expAt, State.log, hexps, hlogs]

theorem State.hornerFrom_congr (hexps : s.exps = t.exps) (hlogs : s.logs = t.logs) (hcoef : s.coef = t.coef)
    (x : Byte) (n : Nat) (acc : Byte) : s.hornerFrom x n acc = t.hornerFrom x n acc := by
  induction n generalizing acc with
  | zero => rfl
  | succ n ih =>
    simp only [State.hornerFrom, State.coefAt, hcoef, State.gfMul_congr hexps hlogs, ih]

/-- The evaluator reads the tables and the coefficients (R66). -/
theorem State.horner_congr (hexps : s.exps = t.exps) (hlogs : s.logs = t.logs) (hcoef : s.coef = t.coef)
    (hkc : s.kc = t.kc) (x : Byte) : s.horner x = t.horner x := by
  rw [State.horner, State.horner, hkc, State.hornerFrom_congr hexps hlogs hcoef]

/-- And so does the share loop (R69). -/
theorem State.evaluations_congr (hexps : s.exps = t.exps) (hlogs : s.logs = t.logs) (hcoef : s.coef = t.coef)
    (hkc : s.kc = t.kc) (n : Nat) : s.evaluations n = t.evaluations n := by
  induction n with
  | zero => rfl
  | succ n ih => simp only [State.evaluations, ih, State.horner_congr hexps hlogs hcoef hkc]

/-- The duplicate search reads the X coordinates (R74). -/
theorem State.findX_congr (hpx : s.px = t.px) (x : Byte) (count i : Nat) : s.findX x count i = t.findX x count i := by
  induction count generalizing i with
  | zero => rfl
  | succ count ih => simp only [State.findX, State.pxAt, hpx, ih]

theorem State.exponentStep_congr (hlogs : s.logs = t.logs) (xi xj : Byte) (product : Nat) :
    s.exponentStep xi xj product = t.exponentStep xi xj product := by
  simp only [State.exponentStep, State.logAt, State.log, hlogs]

theorem State.exponentLoop_congr (hlogs : s.logs = t.logs) (hpx : s.px = t.px) (i : Nat) (xi : Byte) (js : List Nat)
    (product : Nat) : s.exponentLoop i xi js product = t.exponentLoop i xi js product := by
  induction js generalizing product with
  | nil => rfl
  | cons j js ih => simp only [State.exponentLoop, State.pxAt, hpx, State.exponentStep_congr hlogs, ih]

theorem State.term_congr (hexps : s.exps = t.exps) (hlogs : s.logs = t.logs) (hpx : s.px = t.px) (hpy : s.py = t.py)
    (hnp : s.np = t.np) (i : Nat) : s.term i = t.term i := by
  simp only [State.term, State.termExponent, State.pyAt, State.pxAt, State.log, State.expAt, hexps, hlogs, hpx, hpy, hnp,
    State.exponentLoop_congr hlogs hpx]

theorem State.sumTerms_congr (hterm : ∀ i, s.term i = t.term i) (is : List Nat) (sum : Byte) :
    s.sumTerms is sum = t.sumTerms is sum := by
  induction is generalizing sum with
  | nil => rfl
  | cons i is ih => simp only [State.sumTerms, hterm, ih]

/-- The interpolator reads the tables and the points (R75). -/
theorem State.lagrange0_congr (hexps : s.exps = t.exps) (hlogs : s.logs = t.logs) (hpx : s.px = t.px)
    (hpy : s.py = t.py) (hnp : s.np = t.np) : s.lagrange0 = t.lagrange0 := by
  rw [State.lagrange0, State.lagrange0, hnp, State.sumTerms_congr (State.term_congr hexps hlogs hpx hpy hnp)]

end

/-! ### RES is not read -/

/-- Every value of RES forgotten. -/
def forgetRes (t : State) : State := t.setRes 0#8

/-- The gate does not read RES: it is enough to compare what the command performs. -/
theorem gate_setRes {s : State} {r : Byte} {p q : Result} (h : AgreeUpTo forgetRes p q) :
    AgreeUpTo forgetRes (unlessFaulted (s.setRes r) p) (unlessFaulted s q) := .gate rfl rfl h

theorem takeIllegal_setRes (r : Byte) (s : State) :
    AgreeUpTo forgetRes (takeIllegal (s.setRes r)) (takeIllegal s) := gate_setRes (.next rfl)

/-- The other control registers are the same whatever RES holds (R84). -/
theorem ctrl_setRes (s : State) (r : Byte) {c : CtrlReg} (hc : c ≠ .res) : (s.setRes r).ctrl c = s.ctrl c := by
  cases c with
  | res => exact absurd rfl hc
  | status | err | kc | np => rfl

/-- Only the number 0x04 names RES (R20). -/
theorem ctrlRegOf_eq_res : ∀ n : Byte, ctrlRegOf n = some .res → n = 0x04#8 := by decide

theorem execRdcr_setRes (r : Byte) (s : State) {n : Byte} (hn : n ≠ 0x04#8) :
    AgreeUpTo forgetRes (execRdcr n (s.setRes r)) (execRdcr n s) := by
  unfold execRdcr
  split
  · rename_i c hc
    have hres : c ≠ .res := fun h => hn (ctrlRegOf_eq_res n (h ▸ hc))
    rw [ctrl_setRes s r hres]
    exact .next rfl
  · exact takeIllegal_setRes r s

theorem execGfmul_setRes (r : Byte) (s : State) (a b : Byte) :
    AgreeUpTo forgetRes (execGfmul a b (s.setRes r)) (execGfmul a b s) := by
  have hv : (s.setRes r).gfMul a b = s.gfMul a b := State.gfMul_congr rfl rfl a b
  unfold execGfmul
  rw [hv]
  exact gate_setRes (.next rfl)

theorem execGflog_setRes (r : Byte) (s : State) (e : Byte) :
    AgreeUpTo forgetRes (execGflog e (s.setRes r)) (execGflog e s) := by
  refine gate_setRes ?_
  split <;> exact .next rfl

theorem execPeval_setRes (r : Byte) (s : State) (x : Byte) :
    AgreeUpTo forgetRes (execPeval x (s.setRes r)) (execPeval x s) := by
  have hv : (s.setRes r).horner x = s.horner x :=
    State.horner_congr (s := s.setRes r) (t := s) rfl rfl rfl rfl x
  exact gate_setRes (.ite (.next rfl) (.ite (.next rfl) (.withValue hv fun y => .next rfl)))

theorem execSplit_setRes (r : Byte) (s : State) (n : Byte) :
    AgreeUpTo forgetRes (execSplit n (s.setRes r)) (execSplit n s) := by
  have hv : (s.setRes r).evaluations n.toNat = s.evaluations n.toNat :=
    State.evaluations_congr (s := s.setRes r) (t := s) rfl rfl rfl rfl _
  exact gate_setRes (.ite (.next rfl) (.ite (.next rfl) (.ite (.next rfl) (.withValue hv fun ys => .next rfl))))

theorem storePoint_setRes (r : Byte) (s : State) (x y : Byte) :
    AgreeUpTo forgetRes (storePoint x y (s.setRes r)) (storePoint x y s) := .ite rfl (.next rfl)

theorem execPpush_setRes (r : Byte) (s : State) (x y : Byte) :
    AgreeUpTo forgetRes (execPpush x y (s.setRes r)) (execPpush x y s) := by
  have hv : (s.setRes r).findX x s.np.toNat 0 = s.findX x s.np.toNat 0 :=
    State.findX_congr (s := s.setRes r) (t := s) rfl x _ _
  exact gate_setRes (.ite (.next rfl) (.withValue hv fun found => .ite (.next rfl) (storePoint_setRes r s x y)))

theorem execLagr_setRes (r : Byte) (s : State) : AgreeUpTo forgetRes (execLagr (s.setRes r)) (execLagr s) := by
  have hv : (s.setRes r).lagrange0 = s.lagrange0 := State.lagrange0_congr rfl rfl rfl rfl rfl
  exact gate_setRes (.ite (.next rfl) (.withValue hv fun y => .next rfl))

/-- Every command but RDCR 0x04 has the same outcome apart from RES, whatever RES held. -/
theorem exec_setRes (r : Byte) (s : State) {i : Instr} (hi : i ≠ .rdcr 0x04#8) :
    AgreeUpTo forgetRes (exec i (s.setRes r)) (exec i s) := by
  cases i with
  | nop => exact gate_setRes (.next rfl)
  | rdcr n => exact execRdcr_setRes r s fun hn => hi (congrArg Instr.rdcr hn)
  | gfadd a b => exact gate_setRes (.next rfl)
  | gfmul a b => exact execGfmul_setRes r s a b
  | gfexp a => exact gate_setRes (.next rfl)
  | gflog e => exact execGflog_setRes r s e
  | cclr => exact gate_setRes (.next rfl)
  | cpush a => exact gate_setRes (.ite (.next rfl) (.next rfl))
  | peval x => exact execPeval_setRes r s x
  | split n => exact execSplit_setRes r s n
  | pclr => exact gate_setRes (.next rfl)
  | ppush x y => exact execPpush_setRes r s x y
  | lagr => exact execLagr_setRes r s

/-- Settles O50: a change of RES is what `State.setRes` names. -/
theorem onlyRdcrReadsRes : Obligations.OnlyRdcrReadsRes := by
  intro i s r hi
  exact exec_setRes r s hi

end Sys2Proof.Machine
end

section
/-! The register STATUS (spec/10_state.md R18), and the tables the construction leaves (spec/10_state.md R25,
spec/40_field.md R49, R50). -/

namespace Sys2Proof.Machine

/-- Settles O25: each bit is a bit of the part of the concatenation that holds it. -/
theorem statusBits : Obligations.StatusBits := by
  intro s
  refine ⟨?_, ?_, fun k hk => ?_⟩
  · rw [State.status, BitVec.getLsbD_append]
    simp
  · rw [State.status, BitVec.getLsbD_append, BitVec.getLsbD_append]
    simp [State.flt]
  · rw [State.status, BitVec.getLsbD_append, BitVec.getLsbD_append, if_neg (by omega), if_neg (by omega)]
    exact BitVec.getLsbD_zero

/-! ### The listing R25 -/

/-- R49's loop leaves EXPS as R25 lists it: one run of the construction. -/
theorem constructed_exps_listing : Tables.constructed.exps.toList.map BitVec.toNat = expsListing := by decide +kernel

/-- And LOGS. -/
theorem constructed_logs_listing : Tables.constructed.logs.toList.map BitVec.toNat = logsListing := by decide +kernel

/-- Settles O1: the tables by the listing, every other piece by its reset value. -/
theorem resetLeavesListedValues : Obligations.ResetLeavesListedValues := by
  refine ⟨?_, ?_, State.logAt_zero _, rfl, fun _ => rfl, rfl, fun _ => ⟨rfl, rfl⟩, rfl, rfl, rfl, rfl, rfl⟩
  · rw [State.reset_exps]
    exact constructed_exps_listing
  · rw [State.reset_logs]
    exact constructed_logs_listing

/-- An entry of a table, read in its listing. -/
theorem getElem_eq_ofNat_listing {n : Nat} {v : Vector Byte n} {l : List Nat}
    (h : v.toList.map BitVec.toNat = l) (k : Nat) (hk : k < n) : v[k] = BitVec.ofNat 8 (l.getD k 0) := by
  subst h
  simp [hk]

/-- EXPS after reset is read in R25's listing. -/
theorem reset_expAt (i : Byte) : State.reset.expAt i = BitVec.ofNat 8 (expsListing.getD i.toNat 0) := by
  simp only [State.expAt, State.reset_exps]
  exact getElem_eq_ofNat_listing constructed_exps_listing i.toNat i.isLt

/-- LOGS after reset is read in R25's listing. -/
theorem reset_log (e : Byte) (h : e ≠ 0#8) : State.reset.log e h = BitVec.ofNat 8 (logsListing.getD (e.toNat - 1) 0) := by
  simp only [State.log, State.reset_logs]
  exact getElem_eq_ofNat_listing constructed_logs_listing _ _

/-! ### The tables are inverse to each other -/

/-- R50 (c): no entry of EXPS is zero. -/
theorem reset_expAt_ne_zero (i : Byte) : State.reset.expAt i ≠ 0#8 := by
  rw [reset_expAt]
  revert i
  decide +kernel

/-- R50 (e): EXPS[LOGS[e]] = e, entry by entry of the two listings. -/
theorem reset_expAt_log (e : Byte) (h : e ≠ 0#8) : State.reset.expAt (State.reset.log e h) = e := by
  rw [reset_expAt, reset_log]
  revert e
  decide +kernel

/-- EXPS[255] = 1, the order of the group (R50 (b)). -/
theorem reset_expAt_255 : State.reset.expAt 0xFF#8 = 0x01#8 := by
  rw [reset_expAt]
  decide +kernel

theorem reset_expAt_zero : State.reset.expAt 0x00#8 = 0x01#8 := by
  rw [reset_expAt]
  decide +kernel

/-- LOGS[1] = 255: the loop's last iteration wins (R50 (d)). -/
theorem reset_log_one (h : (0x01#8 : Byte) ≠ 0#8) : State.reset.log 0x01#8 h = 0xFF#8 := by
  rw [reset_log]
  decide +kernel

/-- An element with logarithm 255 is EXPS[255] = 1. -/
theorem reset_log_ne_255 {e : Byte} (h : e ≠ 0#8) (h1 : e ≠ 1#8) : State.reset.log e h ≠ 0xFF#8 := by
  intro hlog
  have he := reset_expAt_log e h
  rw [hlog, reset_expAt_255] at he
  exact h1 he.symm

/-- An element with logarithm 0 would be EXPS[0] = 1, whose logarithm is 255. -/
theorem reset_log_ne_zero (e : Byte) (h : e ≠ 0#8) : State.reset.log e h ≠ 0#8 := by
  intro hlog
  have he := reset_expAt_log e h
  rw [hlog, reset_expAt_zero] at he
  subst he
  rw [reset_log_one] at hlog
  exact absurd hlog (by decide)

/-- LOGS as a map of the nonzero bytes to themselves. -/
def nonzeroLog (e : { e : Byte // e ≠ 0#8 }) : { i : Byte // i ≠ 0#8 } :=
  ⟨State.reset.log e.1 e.2, reset_log_ne_zero e.1 e.2⟩

theorem nonzeroLog_val (e : { e : Byte // e ≠ 0#8 }) : (nonzeroLog e).val = State.reset.log e.1 e.2 := by
  rw [nonzeroLog]

/-- Every nonzero byte is a logarithm: the map has the left inverse EXPS, and its domain is finite. -/
theorem nonzeroLog_surjective : Function.Surjective nonzeroLog := by
  have hinj : Function.Injective nonzeroLog := by
    intro a b hab
    have hlog : State.reset.log a.1 a.2 = State.reset.log b.1 b.2 := by
      rw [← nonzeroLog_val, ← nonzeroLog_val, hab]
    refine Subtype.ext ?_
    rw [← reset_expAt_log a.1 a.2, hlog, reset_expAt_log]
  exact Finite.injective_iff_surjective.mp hinj

/-- R50 (e), the other way round: LOGS[EXPS[i]] = i for i in 1..255. -/
theorem reset_log_expAt {i : Byte} (hi : i ≠ 0#8) :
    State.reset.log (State.reset.expAt i) (reset_expAt_ne_zero i) = i := by
  obtain ⟨⟨e, he⟩, hlog⟩ := nonzeroLog_surjective ⟨i, hi⟩
  have hi' : State.reset.log e he = i := by
    rw [← nonzeroLog_val ⟨e, he⟩, hlog]
  subst hi'
  simp only [reset_expAt_log]

/-- EXPS repeats no entry at indices 1..255. -/
theorem reset_expAt_injective {i j : Byte} (hi : i ≠ 0#8) (hj : j ≠ 0#8)
    (h : State.reset.expAt i = State.reset.expAt j) : i = j := by
  rw [← reset_log_expAt hi, ← reset_log_expAt hj]
  simp only [h]

/-- EXPS[0] = EXPS[255], so of the other indices none has the entry 1. -/
theorem eq_zero_of_reset_expAt_eq_one {i : Byte} (hi : i ≠ 0xFF#8) (h : State.reset.expAt i = 0x01#8) : i = 0#8 := by
  by_contra h0
  exact hi (reset_expAt_injective h0 (by decide) (h.trans reset_expAt_255.symm))

/-- R50 (b): EXPS repeats no entry at indices 0..254. -/
theorem reset_expAt_injective_of_ne_255 {i j : Byte} (hi : i ≠ 0xFF#8) (hj : j ≠ 0xFF#8)
    (h : State.reset.expAt i = State.reset.expAt j) : i = j := by
  by_cases hi0 : i = 0#8
  · subst hi0
    exact (eq_zero_of_reset_expAt_eq_one hj (h.symm.trans reset_expAt_zero)).symm
  · by_cases hj0 : j = 0#8
    · subst hj0
      exact eq_zero_of_reset_expAt_eq_one hi (h.trans reset_expAt_zero)
    · exact reset_expAt_injective hi0 hj0 h

theorem reset_exps_nodup : ((List.range 255).map fun i => State.reset.expAt (BitVec.ofNat 8 i)).Nodup := by
  refine List.Nodup.map_on ?_ List.nodup_range
  intro i hi j hj h
  rw [List.mem_range] at hi hj
  have hij := reset_expAt_injective_of_ne_255 (i := BitVec.ofNat 8 i) (j := BitVec.ofNat 8 j) (by bv_omega) (by bv_omega) h
  bv_omega

/-- Settles O2: two checks of the listing (EXPS[LOGS[e]] = e and no zero in EXPS) and three entries give the rest. -/
theorem tablesAreInverse : Obligations.TablesAreInverse :=
  ⟨reset_exps_nodup, reset_expAt_ne_zero, reset_expAt_255, reset_expAt_zero, reset_log_one _,
    fun e h => ⟨reset_log_ne_zero e h, reset_log_ne_255 h⟩, reset_expAt_log,
    fun i hi => ⟨reset_expAt_ne_zero i, reset_log_expAt hi⟩⟩

end Sys2Proof.Machine
end

section
/-! The response stream only grows (spec/30_encoding.md R33, R37; spec/70_reset_and_hazards.md R107): every outcome of a
command emits words after those emitted before, and a reset or a wait emits none. -/

namespace Sys2Proof.Machine

theorem takeIllegal_rsp_grows {s t : State} (h : takeIllegal s = .next t) : s.rsp <+: t.rsp := by
  rcases takeIllegal_next h with ⟨-, rfl⟩ | ⟨-, rfl⟩ <;> simp

/-- GFADD, GFMUL and GFEXP have this form. -/
theorem gated_finishing_rsp_grows {r : Byte} {s t : State} (h : unlessFaulted s (finishing r s) = .next t) :
    s.rsp <+: t.rsp := by
  rcases gated_finishing_next h with ⟨-, rfl⟩ | ⟨-, rfl⟩ <;> simp

/-- In each outcome a command can have, its words come after those emitted before. -/
theorem exec_rsp_grows {i : Instr} {s t : State} (h : exec i s = .next t) : s.rsp <+: t.rsp := by
  cases i with
  | nop => rcases execNop_next h with ⟨-, rfl⟩ | ⟨-, rfl⟩ <;> simp
  | rdcr n =>
    rcases execRdcr_next h with ⟨r, -, rfl⟩ | ⟨-, h⟩
    · simp
    · exact takeIllegal_rsp_grows h
  | gfadd a b => exact gated_finishing_rsp_grows h
  | gfmul a b => exact gated_finishing_rsp_grows h
  | gfexp a => exact gated_finishing_rsp_grows h
  | gflog a => rcases execGflog_next h with ⟨-, rfl⟩ | ⟨-, ⟨-, rfl⟩ | ⟨ha, rfl⟩⟩ <;> simp
  | cclr => rcases execCclr_next h with ⟨-, rfl⟩ | ⟨-, rfl⟩ <;> simp
  | cpush a => rcases execCpush_next h with ⟨-, rfl⟩ | ⟨-, ⟨-, rfl⟩ | ⟨-, rfl⟩⟩ <;> simp
  | peval x =>
    rcases execPeval_next h with ⟨-, rfl⟩ | ⟨-, ⟨-, rfl⟩ | ⟨-, -, rfl⟩ | ⟨-, -, r, -, rfl⟩⟩ <;> simp
  | split n =>
    rcases execSplit_next h with ⟨-, rfl⟩ | ⟨-, ⟨-, rfl⟩ | ⟨-, -, rfl⟩ | ⟨-, -, -, rfl⟩ | ⟨-, -, -, ys, -, rfl⟩⟩ <;>
      simp
  | pclr => rcases execPclr_next h with ⟨-, rfl⟩ | ⟨-, rfl⟩ <;> simp
  | ppush x y =>
    rcases execPpush_next h with ⟨-, rfl⟩ | ⟨-, ⟨-, rfl⟩ | ⟨-, -, rfl⟩ | ⟨-, -, -, rfl⟩⟩ <;> simp
  | lagr => rcases execLagr_next h with ⟨-, rfl⟩ | ⟨-, ⟨-, rfl⟩ | ⟨-, r, -, rfl⟩⟩ <;> simp

/-- Settles O21: over the kinds of step; taking an action off CMD leaves RSP alone. -/
theorem responseStreamOnlyGrows : Obligations.ResponseStreamOnlyGrows := by
  intro s t h
  rcases step_cases s with ⟨-, hs⟩ | ⟨rest, -, hs⟩ | ⟨w, rest, i, -, -, hs⟩ | ⟨w, rest, e, -, -, hs⟩ <;> rw [hs] at h
  · injection h with h
    rw [h]
  · injection h with h
    simp [← h]
  · simpa using exec_rsp_grows h
  · simpa using takeIllegal_rsp_grows h

end Sys2Proof.Machine
end

section
/-! The split side and the combine side (spec/20_memory.md R26, R35). A side does not read the other's state: its outcome
is the same, apart from that state, whatever the other side holds. It does not write it: the frames of its commands. -/

namespace Sys2Proof.Machine

/-- An outcome that agrees up to f, and whose next state f leaves alone, is the other outcome changed by f. -/
theorem AgreeUpTo.eq_mapNext {f : State → State} {p q : Result} (h : AgreeUpTo f p q)
    (hp : ∀ t, p = .next t → f t = t) : p = mapNext f q := by
  rw [← h]
  cases p with
  | next t => rw [mapNext, hp t rfl]
  | fault r => rfl
  | refused r => rfl

/-! ### The split side -/

/-- The combine side's state replaced. -/
def State.withPoints (s : State) (px py : Memory) (np : Byte) (dup : Bool) : State :=
  { s with px := px, py := py, np := np, dup := dup }

/-- The commands of the split side (spec/41_split.md). -/
def OnSplitSide (i : Instr) : Prop :=
  i = .cclr ∨ (∃ a, i = .cpush a) ∨ (∃ x, i = .peval x) ∨ ∃ n, i = .split n

section

variable (px py : Memory) (np : Byte) (dup : Bool)

/-- The gate does not read the points. -/
theorem gate_withPoints {s : State} {p q : Result} (h : AgreeUpTo (·.withPoints px py np dup) p q) :
    AgreeUpTo (·.withPoints px py np dup) (unlessFaulted (s.withPoints px py np dup) p) (unlessFaulted s q) :=
  .gate rfl rfl h

theorem execPeval_withPoints (s : State) (x : Byte) :
    AgreeUpTo (·.withPoints px py np dup) (execPeval x (s.withPoints px py np dup)) (execPeval x s) := by
  have hv : (s.withPoints px py np dup).horner x = s.horner x :=
    State.horner_congr (s := s.withPoints px py np dup) (t := s) rfl rfl rfl rfl x
  exact gate_withPoints px py np dup (.ite (.next rfl) (.ite (.next rfl) (.withValue hv fun r => .next rfl)))

theorem execSplit_withPoints (s : State) (n : Byte) :
    AgreeUpTo (·.withPoints px py np dup) (execSplit n (s.withPoints px py np dup)) (execSplit n s) := by
  have hv : (s.withPoints px py np dup).evaluations n.toNat = s.evaluations n.toNat :=
    State.evaluations_congr (s := s.withPoints px py np dup) (t := s) rfl rfl rfl rfl _
  exact gate_withPoints px py np dup
    (.ite (.next rfl) (.ite (.next rfl) (.ite (.next rfl) (.withValue hv fun ys => .next rfl))))

/-- The split side does not read the points. -/
theorem exec_withPoints {i : Instr} (hi : OnSplitSide i) (s : State) :
    AgreeUpTo (·.withPoints px py np dup) (exec i (s.withPoints px py np dup)) (exec i s) := by
  rcases hi with rfl | ⟨a, rfl⟩ | ⟨x, rfl⟩ | ⟨n, rfl⟩
  · exact gate_withPoints px py np dup (.next rfl)
  · exact gate_withPoints px py np dup (.ite (.next rfl) (.next rfl))
  · exact execPeval_withPoints px py np dup s x
  · exact execSplit_withPoints px py np dup s n

end

/-- The split side does not write the points. -/
theorem OnSplitSide.keeps_points {i : Instr} (hi : OnSplitSide i) {s t : State} (h : exec i s = .next t) :
    t.withPoints s.px s.py s.np s.dup = t := by
  rcases hi with rfl | ⟨a, rfl⟩ | ⟨x, rfl⟩ | ⟨n, rfl⟩
  · rw [execCclr_frame h]
    rfl
  · rw [execCpush_frame h]
    rfl
  · rw [(execPeval_outputOnly h).frame]
    rfl
  · rw [(execSplit_outputOnly h).frame]
    rfl

/-! ### The combine side -/

/-- The split side's state replaced. -/
def State.withCoefficients (s : State) (coef : Memory) (kc : Byte) : State := { s with coef := coef, kc := kc }

/-- The commands of the combine side (spec/42_combine.md). -/
def OnCombineSide (i : Instr) : Prop := i = .pclr ∨ (∃ x y, i = .ppush x y) ∨ i = .lagr

section

variable (coef : Memory) (kc : Byte)

/-- The gate does not read the coefficients. -/
theorem gate_withCoefficients {s : State} {p q : Result} (h : AgreeUpTo (·.withCoefficients coef kc) p q) :
    AgreeUpTo (·.withCoefficients coef kc) (unlessFaulted (s.withCoefficients coef kc) p) (unlessFaulted s q) :=
  .gate rfl rfl h

theorem storePoint_withCoefficients (s : State) (x y : Byte) :
    AgreeUpTo (·.withCoefficients coef kc) (storePoint x y (s.withCoefficients coef kc)) (storePoint x y s) :=
  .ite rfl (.next rfl)

theorem execPpush_withCoefficients (s : State) (x y : Byte) :
    AgreeUpTo (·.withCoefficients coef kc) (execPpush x y (s.withCoefficients coef kc)) (execPpush x y s) := by
  have hv : (s.withCoefficients coef kc).findX x s.np.toNat 0 = s.findX x s.np.toNat 0 :=
    State.findX_congr (s := s.withCoefficients coef kc) (t := s) rfl x _ _
  exact gate_withCoefficients coef kc
    (.ite (.next rfl) (.withValue hv fun found => .ite (.next rfl) (storePoint_withCoefficients coef kc s x y)))

theorem execLagr_withCoefficients (s : State) :
    AgreeUpTo (·.withCoefficients coef kc) (execLagr (s.withCoefficients coef kc)) (execLagr s) := by
  have hv : (s.withCoefficients coef kc).lagrange0 = s.lagrange0 := State.lagrange0_congr rfl rfl rfl rfl rfl
  exact gate_withCoefficients coef kc (.ite (.next rfl) (.withValue hv fun r => .next rfl))

/-- The combine side does not read the coefficients. -/
theorem exec_withCoefficients {i : Instr} (hi : OnCombineSide i) (s : State) :
    AgreeUpTo (·.withCoefficients coef kc) (exec i (s.withCoefficients coef kc)) (exec i s) := by
  rcases hi with rfl | ⟨x, y, rfl⟩ | rfl
  · exact gate_withCoefficients coef kc (.next rfl)
  · exact execPpush_withCoefficients coef kc s x y
  · exact execLagr_withCoefficients coef kc s

end

/-- The combine side does not write the coefficients. -/
theorem OnCombineSide.keeps_coefficients {i : Instr} (hi : OnCombineSide i) {s t : State}
    (h : exec i s = .next t) : t.withCoefficients s.coef s.kc = t := by
  rcases hi with rfl | ⟨x, y, rfl⟩ | rfl
  · rw [execPclr_frame h]
    rfl
  · rw [execPpush_frame h]
    rfl
  · rw [(execLagr_outputOnly h).frame]
    rfl

/-- Settles O46: each side neither reads nor writes the other's state, so replacing that state commutes with the command. -/
theorem splitAndCombineSidesAreSeparate : Obligations.SplitAndCombineSidesAreSeparate := by
  refine ⟨fun i s px py np dup hi => ?_, fun i s coef kc hi => ?_⟩
  · exact (exec_withPoints px py np dup hi s).eq_mapNext fun t h => OnSplitSide.keeps_points hi h
  · exact (exec_withCoefficients coef kc hi s).eq_mapNext fun t h => OnCombineSide.keeps_coefficients hi h

end Sys2Proof.Machine
end

section
/-! The command word and its four fields (spec/30_encoding.md R38). -/

namespace Sys2Proof.Machine

/-- Appending a byte to the low end of a word. -/
theorem toNat_append_byte {n : Nat} (x : BitVec n) (y : Byte) : (x ++ y).toNat = x.toNat * 2 ^ 8 + y.toNat := by
  rw [BitVec.toNat_append, ← Nat.shiftLeft_add_eq_or_of_lt y.isLt, Nat.shiftLeft_eq]

theorem toNat_wordOf (op a b z : Byte) :
    (wordOf op a b z).toNat = op.toNat * 2 ^ 24 + a.toNat * 2 ^ 16 + b.toNat * 2 ^ 8 + z.toNat := by
  rw [wordOf, toNat_append_byte, toNat_append_byte, toNat_append_byte]
  ring

/-- A field is the word's number shifted down, mod 256. -/
theorem toNat_field (w : CommandWord) (start : Nat) : (w.extractLsb' start 8).toNat = w.toNat / 2 ^ start % 2 ^ 8 := by
  rw [BitVec.extractLsb'_toNat, Nat.shiftRight_eq_div_pow]

@[simp] theorem fieldsOf_wordOf (op a b z : Byte) : fieldsOf (wordOf op a b z) = ⟨op, a, b, z⟩ := by
  have hop := op.isLt
  have ha := a.isLt
  have hb := b.isLt
  have hz := z.isLt
  rw [fieldsOf, Fields.mk.injEq]
  refine ⟨?_, ?_, ?_, ?_⟩ <;> apply BitVec.eq_of_toNat_eq <;> rw [toNat_field, toNat_wordOf] <;> omega

/-- The fields determine the word. -/
theorem wordOf_fieldsOf (w : CommandWord) :
    wordOf (fieldsOf w).op (fieldsOf w).a (fieldsOf w).b (fieldsOf w).z = w := by
  have hw := w.isLt
  apply BitVec.eq_of_toNat_eq
  simp only [toNat_wordOf, fieldsOf, toNat_field]
  omega

/-- Every word is the word of four fields. -/
theorem exists_wordOf (w : CommandWord) : ∃ op a b z, w = wordOf op a b z := ⟨_, _, _, _, (wordOf_fieldsOf w).symm⟩

/-- R46's first test: z must be zero. -/
theorem decode_of_z_ne {z : Byte} (hz : z ≠ 0#8) (op a b : Byte) : decode (wordOf op a b z) = .error .zField := by
  rw [decode, fieldsOf_wordOf, if_neg hz]

/-- With z zero the opcode decides (R46). -/
theorem decode_of_z_zero (op a b : Byte) : decode (wordOf op a b 0#8) = decodeFields ⟨op, a, b, 0#8⟩ := by
  rw [decode, fieldsOf_wordOf, if_pos rfl]

/-- Settles O4: the number and the fields of a word, and decoding's first test. -/
theorem wordIsItsFields : Obligations.WordIsItsFields := by
  intro op a b z
  exact ⟨toNat_wordOf op a b z, fieldsOf_wordOf op a b z, fun hz => ⟨_, decode_of_z_ne hz op a b⟩⟩

end Sys2Proof.Machine
end

section
/-! The formats of R39: which words of an opcode decode, and to what. One lemma per format, then one line per command. -/

namespace Sys2Proof.Machine

/-- A word is illegal exactly when it decodes to no command. -/
theorem illegal_iff_not_ok {w : CommandWord} : (∃ e, decode w = .error e) ↔ ¬ ∃ i, decode w = .ok i := by
  cases decode w <;> simp

/-- An opcode whose entry in R46 is format Z has form Z. -/
theorem formZ_of_decodeFields {op : Byte} {i : Instr}
    (h : ∀ a b, decodeFields ⟨op, a, b, 0#8⟩ = formatZ ⟨op, a, b, 0#8⟩ i) : FormZ op i := by
  refine ⟨?_, fun a b z hne => ?_⟩
  · rw [decode_of_z_zero, h, formatZ, if_pos ⟨rfl, rfl⟩]
  · by_cases hz : z = 0#8
    · subst hz
      rw [decode_of_z_zero, h, formatZ, if_neg (by tauto)]
      exact ⟨_, rfl⟩
    · exact ⟨_, decode_of_z_ne hz op a b⟩

/-- An opcode whose entry is format A has form A. -/
theorem formA_of_decodeFields {op : Byte} {mk : Byte → Instr}
    (h : ∀ a b, decodeFields ⟨op, a, b, 0#8⟩ = formatA ⟨op, a, b, 0#8⟩ mk) : FormA op mk := by
  refine fun a => ⟨?_, fun b z hne => ?_⟩
  · rw [decode_of_z_zero, h, formatA, if_pos rfl]
  · by_cases hz : z = 0#8
    · subst hz
      rw [decode_of_z_zero, h, formatA, if_neg (by tauto)]
      exact ⟨_, rfl⟩
    · exact ⟨_, decode_of_z_ne hz op a b⟩

/-- An opcode whose entry is format AB has form AB. -/
theorem formAB_of_decodeFields {op : Byte} {mk : Byte → Byte → Instr}
    (h : ∀ a b, decodeFields ⟨op, a, b, 0#8⟩ = formatAB ⟨op, a, b, 0#8⟩ mk) : FormAB op mk := by
  refine fun a b => ⟨?_, fun z hz => ⟨_, decode_of_z_ne hz op a b⟩⟩
  rw [decode_of_z_zero, h, formatAB]

/-- The words of a form Z opcode that decode. -/
theorem FormZ.ok_iff {op : Byte} {i : Instr} (h : FormZ op i) {a b z : Byte} {j : Instr} :
    decode (wordOf op a b z) = .ok j ↔ a = 0#8 ∧ b = 0#8 ∧ z = 0#8 ∧ i = j := by
  obtain ⟨hok, hillegal⟩ := h
  constructor
  · intro hj
    have hfields : ¬ (a ≠ 0#8 ∨ b ≠ 0#8 ∨ z ≠ 0#8) := fun hne => illegal_iff_not_ok.mp (hillegal a b z hne) ⟨j, hj⟩
    obtain ⟨rfl, rfl, rfl⟩ : a = 0#8 ∧ b = 0#8 ∧ z = 0#8 := by tauto
    rw [hok] at hj
    injection hj with hj
    exact ⟨rfl, rfl, rfl, hj⟩
  · rintro ⟨rfl, rfl, rfl, rfl⟩
    exact hok

/-- The words of a form A opcode that decode. -/
theorem FormA.ok_iff {op : Byte} {mk : Byte → Instr} (h : FormA op mk) {a b z : Byte} {j : Instr} :
    decode (wordOf op a b z) = .ok j ↔ b = 0#8 ∧ z = 0#8 ∧ mk a = j := by
  obtain ⟨hok, hillegal⟩ := h a
  constructor
  · intro hj
    have hfields : ¬ (b ≠ 0#8 ∨ z ≠ 0#8) := fun hne => illegal_iff_not_ok.mp (hillegal b z hne) ⟨j, hj⟩
    obtain ⟨rfl, rfl⟩ : b = 0#8 ∧ z = 0#8 := by tauto
    rw [hok] at hj
    injection hj with hj
    exact ⟨rfl, rfl, hj⟩
  · rintro ⟨rfl, rfl, rfl⟩
    exact hok

/-- The words of a form AB opcode that decode. -/
theorem FormAB.ok_iff {op : Byte} {mk : Byte → Byte → Instr} (h : FormAB op mk) {a b z : Byte} {j : Instr} :
    decode (wordOf op a b z) = .ok j ↔ z = 0#8 ∧ mk a b = j := by
  obtain ⟨hok, hillegal⟩ := h a b
  constructor
  · intro hj
    obtain rfl : z = 0#8 := by_contra fun hne => illegal_iff_not_ok.mp (hillegal z hne) ⟨j, hj⟩
    rw [hok] at hj
    injection hj with hj
    exact ⟨rfl, hj⟩
  · rintro ⟨rfl, rfl⟩
    exact hok

theorem form_nop : FormZ 0x00#8 .nop := formZ_of_decodeFields fun _ _ => rfl
theorem form_gfadd : FormAB 0x10#8 .gfadd := formAB_of_decodeFields fun _ _ => rfl
theorem form_gfmul : FormAB 0x11#8 .gfmul := formAB_of_decodeFields fun _ _ => rfl
theorem form_gfexp : FormA 0x12#8 .gfexp := formA_of_decodeFields fun _ _ => rfl
theorem form_gflog : FormA 0x13#8 .gflog := formA_of_decodeFields fun _ _ => rfl
theorem form_cclr : FormZ 0x20#8 .cclr := formZ_of_decodeFields fun _ _ => rfl
theorem form_cpush : FormA 0x21#8 .cpush := formA_of_decodeFields fun _ _ => rfl
theorem form_peval : FormA 0x22#8 .peval := formA_of_decodeFields fun _ _ => rfl
theorem form_split : FormA 0x23#8 .split := formA_of_decodeFields fun _ _ => rfl
theorem form_pclr : FormZ 0x30#8 .pclr := formZ_of_decodeFields fun _ _ => rfl
theorem form_ppush : FormAB 0x31#8 .ppush := formAB_of_decodeFields fun _ _ => rfl
theorem form_lagr : FormZ 0x32#8 .lagr := formZ_of_decodeFields fun _ _ => rfl

/-- RDCR's opcode: format A with the number at most 0x04 (R46). -/
theorem decode_rdcr_ok_iff {a b z : Byte} {j : Instr} :
    decode (wordOf 0x01#8 a b z) = .ok j ↔ a ≤ 0x04#8 ∧ b = 0#8 ∧ z = 0#8 ∧ .rdcr a = j := by
  by_cases hz : z = 0#8
  · subst hz
    have h : decodeFields ⟨0x01#8, a, b, 0#8⟩ = formatNumber ⟨0x01#8, a, b, 0#8⟩ .rdcr := rfl
    rw [decode_of_z_zero, h, formatNumber]
    by_cases hb : b = 0#8
    · by_cases ha : a ≤ 0x04#8
      · simp [hb, ha]
      · simp [hb, ha]
    · simp [hb]
  · simp [decode_of_z_ne hz, hz]

/-- The thirteen opcodes of R41. -/
def opcodes : List Byte :=
  [0x00#8, 0x01#8, 0x10#8, 0x11#8, 0x12#8, 0x13#8, 0x20#8, 0x21#8, 0x22#8, 0x23#8, 0x30#8, 0x31#8, 0x32#8]

/-- One of thirteen values, as thirteen cases. -/
theorem mem_opcodes {op : Byte} : op ∈ opcodes ↔
    op = 0x00#8 ∨ op = 0x01#8 ∨ op = 0x10#8 ∨ op = 0x11#8 ∨ op = 0x12#8 ∨ op = 0x13#8 ∨ op = 0x20#8 ∨ op = 0x21#8 ∨
      op = 0x22#8 ∨ op = 0x23#8 ∨ op = 0x30#8 ∨ op = 0x31#8 ∨ op = 0x32#8 := by
  simp [opcodes]

/-- R42 (a): the opcode table has no other entry. -/
theorem decode_of_unlisted {op : Byte} (hop : op ∉ opcodes) (a b z : Byte) : ¬ ∃ i, decode (wordOf op a b z) = .ok i := by
  have hne : ∀ p ∈ opcodes, op.toNat ≠ p.toNat := fun p hp he => hop (BitVec.eq_of_toNat_eq he ▸ hp)
  by_cases hz : z = 0#8
  · subst hz
    rw [decode_of_z_zero, decodeFields]
    split <;> simp_all [opcodes]
  · simp [decode_of_z_ne hz]

end Sys2Proof.Machine
end

section
/-! Decoding and encoding are inverse to each other, and the illegal words are those of R42. -/

namespace Sys2Proof.Machine

/-- Settles O5: the word of a command is a word of its opcode's form. -/
theorem decodeOfEncode : Obligations.DecodeOfEncode := by
  intro i hi
  cases i with
  | nop => exact form_nop.1
  | rdcr n => exact decode_rdcr_ok_iff.mpr ⟨of_decide_eq_true hi, rfl, rfl, rfl⟩
  | gfadd a b => exact (form_gfadd a b).1
  | gfmul a b => exact (form_gfmul a b).1
  | gfexp e => exact (form_gfexp e).1
  | gflog e => exact (form_gflog e).1
  | cclr => exact form_cclr.1
  | cpush c => exact (form_cpush c).1
  | peval x => exact (form_peval x).1
  | split n => exact (form_split n).1
  | pclr => exact form_pclr.1
  | ppush x y => exact (form_ppush x y).1
  | lagr => exact form_lagr.1

/-- A form Z word that decodes is the encoding of what it decodes to. -/
theorem FormZ.wellFormed_encode_eq {op : Byte} {i : Instr} (h : FormZ op i) (hi : i.wellFormed = true)
    (henc : encode i = wordOf op 0#8 0#8 0#8) {a b z : Byte} {j : Instr} (hj : decode (wordOf op a b z) = .ok j) :
    j.wellFormed = true ∧ encode j = wordOf op a b z := by
  obtain ⟨rfl, rfl, rfl, rfl⟩ := FormZ.ok_iff h |>.mp hj
  exact ⟨hi, henc⟩

/-- The same for form A. -/
theorem FormA.wellFormed_encode_eq {op : Byte} {mk : Byte → Instr} (h : FormA op mk) (hi : ∀ a, (mk a).wellFormed = true)
    (henc : ∀ a, encode (mk a) = wordOf op a 0#8 0#8) {a b z : Byte} {j : Instr}
    (hj : decode (wordOf op a b z) = .ok j) : j.wellFormed = true ∧ encode j = wordOf op a b z := by
  obtain ⟨rfl, rfl, rfl⟩ := FormA.ok_iff h |>.mp hj
  exact ⟨hi a, henc a⟩

/-- The same for form AB. -/
theorem FormAB.wellFormed_encode_eq {op : Byte} {mk : Byte → Byte → Instr} (h : FormAB op mk)
    (hi : ∀ a b, (mk a b).wellFormed = true) (henc : ∀ a b, encode (mk a b) = wordOf op a b 0#8) {a b z : Byte}
    {j : Instr} (hj : decode (wordOf op a b z) = .ok j) : j.wellFormed = true ∧ encode j = wordOf op a b z := by
  obtain ⟨rfl, rfl⟩ := FormAB.ok_iff h |>.mp hj
  exact ⟨hi a b, henc a b⟩

/-- Settles O6: the word's opcode is listed, and its form fixes the fields. -/
theorem onlyEncodingsDecode : Obligations.OnlyEncodingsDecode := by
  intro w i h
  obtain ⟨op, a, b, z, rfl⟩ := exists_wordOf w
  have hop : op ∈ opcodes := by_contra fun hop => decode_of_unlisted hop a b z ⟨i, h⟩
  rcases mem_opcodes.mp hop with rfl | rfl | rfl | rfl | rfl | rfl | rfl | rfl | rfl | rfl | rfl | rfl | rfl
  · exact FormZ.wellFormed_encode_eq form_nop rfl rfl h
  · obtain ⟨ha, rfl, rfl, rfl⟩ := decode_rdcr_ok_iff.mp h
    exact ⟨decide_eq_true ha, rfl⟩
  · exact FormAB.wellFormed_encode_eq form_gfadd (fun _ _ => rfl) (fun _ _ => rfl) h
  · exact FormAB.wellFormed_encode_eq form_gfmul (fun _ _ => rfl) (fun _ _ => rfl) h
  · exact FormA.wellFormed_encode_eq form_gfexp (fun _ => rfl) (fun _ => rfl) h
  · exact FormA.wellFormed_encode_eq form_gflog (fun _ => rfl) (fun _ => rfl) h
  · exact FormZ.wellFormed_encode_eq form_cclr rfl rfl h
  · exact FormA.wellFormed_encode_eq form_cpush (fun _ => rfl) (fun _ => rfl) h
  · exact FormA.wellFormed_encode_eq form_peval (fun _ => rfl) (fun _ => rfl) h
  · exact FormA.wellFormed_encode_eq form_split (fun _ => rfl) (fun _ => rfl) h
  · exact FormZ.wellFormed_encode_eq form_pclr rfl rfl h
  · exact FormAB.wellFormed_encode_eq form_ppush (fun _ _ => rfl) (fun _ _ => rfl) h
  · exact FormZ.wellFormed_encode_eq form_lagr rfl rfl h

/-- The well-formed commands are exactly what decoding gives, each from its own word. -/
theorem decode_eq_ok_iff {w : CommandWord} {i : Instr} : decode w = .ok i ↔ i.wellFormed = true ∧ encode i = w := by
  refine ⟨onlyEncodingsDecode w i, ?_⟩
  rintro ⟨hi, rfl⟩
  exact decodeOfEncode i hi

end Sys2Proof.Machine
end

section
/-! The illegal words R42 (a) to (e), and the opcode rows R41. -/

namespace Sys2Proof.Machine

/-- A form Z word is illegal when a field other than op is not zero. -/
theorem FormZ.illegal_iff {op : Byte} {i : Instr} (h : FormZ op i) {a b z : Byte} :
    (∃ e, decode (wordOf op a b z) = .error e) ↔ z ≠ 0#8 ∨ a ≠ 0#8 ∨ b ≠ 0#8 := by
  simp only [illegal_iff_not_ok, FormZ.ok_iff h, exists_and_left, exists_eq', and_true]
  tauto

/-- A form A word is illegal when b or z is not zero. -/
theorem FormA.illegal_iff {op : Byte} {mk : Byte → Instr} (h : FormA op mk) {a b z : Byte} :
    (∃ e, decode (wordOf op a b z) = .error e) ↔ z ≠ 0#8 ∨ b ≠ 0#8 := by
  simp only [illegal_iff_not_ok, FormA.ok_iff h, exists_and_left, exists_eq', and_true]
  tauto

/-- A form AB word is illegal when z is not zero. -/
theorem FormAB.illegal_iff {op : Byte} {mk : Byte → Byte → Instr} (h : FormAB op mk) {a b z : Byte} :
    (∃ e, decode (wordOf op a b z) = .error e) ↔ z ≠ 0#8 := by
  simp only [illegal_iff_not_ok, FormAB.ok_iff h, exists_and_left, exists_eq', and_true, ne_eq]

/-- An RDCR word is illegal when b or z is not zero or the number is above 0x04. -/
theorem rdcr_illegal_iff {a b z : Byte} :
    (∃ e, decode (wordOf 0x01#8 a b z) = .error e) ↔ z ≠ 0#8 ∨ b ≠ 0#8 ∨ a > 0x04#8 := by
  simp only [illegal_iff_not_ok, decode_rdcr_ok_iff, exists_and_left, exists_eq', and_true, gt_iff_lt, ← BitVec.not_le]
  tauto

/-- Settles O7: an unlisted opcode decodes to nothing; a listed one asks for its form's zero fields. -/
theorem illegalExactlyWhen : Obligations.IllegalExactlyWhen := by
  intro op a b z
  by_cases hop : op ∈ opcodes
  · rcases mem_opcodes.mp hop with rfl | rfl | rfl | rfl | rfl | rfl | rfl | rfl | rfl | rfl | rfl | rfl | rfl
    · simp [FormZ.illegal_iff form_nop]
    · simp [rdcr_illegal_iff]
    · simp [FormAB.illegal_iff form_gfadd]
    · simp [FormAB.illegal_iff form_gfmul]
    · simp [FormA.illegal_iff form_gfexp]
    · simp [FormA.illegal_iff form_gflog]
    · simp [FormZ.illegal_iff form_cclr]
    · simp [FormA.illegal_iff form_cpush]
    · simp [FormA.illegal_iff form_peval]
    · simp [FormA.illegal_iff form_split]
    · simp [FormZ.illegal_iff form_pclr]
    · simp [FormAB.illegal_iff form_ppush]
    · simp [FormZ.illegal_iff form_lagr]
  · exact iff_of_true (illegal_iff_not_ok.mpr (decode_of_unlisted hop a b z)) (.inl hop)

/-- What a mask leaves of a word, field by field. -/
theorem fieldsOf_and (w m : CommandWord) :
    fieldsOf (w &&& m) = ⟨(fieldsOf w).op &&& (fieldsOf m).op, (fieldsOf w).a &&& (fieldsOf m).a,
      (fieldsOf w).b &&& (fieldsOf m).b, (fieldsOf w).z &&& (fieldsOf m).z⟩ := by
  simp only [fieldsOf, BitVec.extractLsb'_and]

/-- A field the mask keeps whole is the pattern's. -/
theorem eq_of_and_full {x m p : Byte} (h : x &&& m = p) (hm : m = 0xFF#8) : x = p := by
  rw [← h, hm]
  exact BitVec.and_allOnes.symm

/-- A word that matches a row has the pattern's field wherever the row's mask is full (R41). -/
theorem field_of_row_match {w : CommandWord} {r : OpcodeRow} (h : w &&& r.mask = r.pattern) :
    ((fieldsOf r.mask).op = 0xFF#8 → (fieldsOf w).op = (fieldsOf r.pattern).op) ∧
    ((fieldsOf r.mask).a = 0xFF#8 → (fieldsOf w).a = (fieldsOf r.pattern).a) ∧
    ((fieldsOf r.mask).b = 0xFF#8 → (fieldsOf w).b = (fieldsOf r.pattern).b) ∧
    ((fieldsOf r.mask).z = 0xFF#8 → (fieldsOf w).z = (fieldsOf r.pattern).z) := by
  rw [← h, fieldsOf_and]
  exact ⟨eq_of_and_full rfl, eq_of_and_full rfl, eq_of_and_full rfl, eq_of_and_full rfl⟩

/-- No two rows have one opcode (R41). -/
theorem opcodeRows_op_injective :
    ∀ r ∈ opcodeRows, ∀ r' ∈ opcodeRows, (fieldsOf r.pattern).op = (fieldsOf r'.pattern).op → r = r' := by decide

/-- Every row's mask keeps op and z, and its pattern has z zero and a listed opcode (R41). -/
theorem opcodeRows_op_z :
    ∀ r ∈ opcodeRows, (fieldsOf r.mask).op = 0xFF#8 ∧ (fieldsOf r.mask).z = 0xFF#8 ∧
      (fieldsOf r.pattern).op ∈ opcodes ∧ (fieldsOf r.pattern).z = 0#8 := by decide

/-- Rows of format Z also fix a and b, rows of format A fix b (R39), and opcode 0x01 is RDCR's row. -/
theorem opcodeRows_unused_fields :
    ∀ r ∈ opcodeRows,
      ((fieldsOf r.pattern).op ∈ [0x00#8, 0x20#8, 0x30#8, 0x32#8] →
        ((fieldsOf r.mask).a = 0xFF#8 ∧ (fieldsOf r.pattern).a = 0#8) ∧
          (fieldsOf r.mask).b = 0xFF#8 ∧ (fieldsOf r.pattern).b = 0#8) ∧
      ((fieldsOf r.pattern).op ∈ [0x01#8, 0x12#8, 0x13#8, 0x21#8, 0x22#8, 0x23#8] →
        (fieldsOf r.mask).b = 0xFF#8 ∧ (fieldsOf r.pattern).b = 0#8) ∧
      ((fieldsOf r.pattern).op = 0x01#8 → r.pattern = 0x01000000) := by decide

theorem opcodeRows_rdcr : ∀ r ∈ opcodeRows, r.pattern = 0x01000000 → r.mnemonic = "RDCR" := by decide

/-- A row's match fixes the opcode. -/
theorem op_of_row_match {w : CommandWord} {r : OpcodeRow} (hr : r ∈ opcodeRows) (h : w &&& r.mask = r.pattern) :
    (fieldsOf w).op = (fieldsOf r.pattern).op :=
  (field_of_row_match h).1 (opcodeRows_op_z r hr).1

/-- A word that a row selects is illegal for none of R42's reasons. -/
theorem decode_ok_of_rowSelects {w : CommandWord} {r : OpcodeRow} (hr : r ∈ opcodeRows) (h : rowSelects w r = true) :
    ∃ i, decode w = .ok i := by
  obtain ⟨hmatch, hnumber⟩ := of_decide_eq_true h
  have hop := op_of_row_match hr hmatch
  obtain ⟨-, hfa, hfb, hfz⟩ := field_of_row_match hmatch
  obtain ⟨-, hmz, hlisted, hpz⟩ := opcodeRows_op_z r hr
  obtain ⟨hZ, hA, hrdcr⟩ := opcodeRows_unused_fields r hr
  rw [← hop] at hlisted hZ hA hrdcr
  obtain ⟨op, a, b, z, rfl⟩ := exists_wordOf w
  simp only [fieldsOf_wordOf] at hlisted hZ hA hrdcr hfa hfb hfz hnumber
  by_contra hbad
  rcases (illegalExactlyWhen op a b z).mp (illegal_iff_not_ok.mpr hbad) with h | h | ⟨h, hab⟩ | ⟨h, hb⟩ | ⟨h, ha⟩
  · exact h hlisted
  · exact h ((hfz hmz).trans hpz)
  · obtain ⟨⟨hma, hpa⟩, hmb, hpb⟩ := hZ h
    exact hab.elim (fun ha => ha ((hfa hma).trans hpa)) (fun hb => hb ((hfb hmb).trans hpb))
  · obtain ⟨hmb, hpb⟩ := hA h
    exact hb ((hfb hmb).trans hpb)
  · exact absurd (hnumber (hrdcr h)) (BitVec.not_le.mpr ha)

/-- Each command's word matches a row with its mnemonic. -/
theorem row_of_encode (i : Instr) : Laws.RowMatch.Statement i := by
  cases i with
  | nop => exact Laws.RowMatch.nop
  | rdcr n => exact Laws.RowMatch.rdcr n
  | gfadd a b => exact Laws.RowMatch.gfadd a b
  | gfmul a b => exact Laws.RowMatch.gfmul a b
  | gfexp e => exact Laws.RowMatch.gfexp e
  | gflog e => exact Laws.RowMatch.gflog e
  | cclr => exact Laws.RowMatch.cclr
  | cpush c => exact Laws.RowMatch.cpush c
  | peval x => exact Laws.RowMatch.peval x
  | split n => exact Laws.RowMatch.split n
  | pclr => exact Laws.RowMatch.pclr
  | ppush x y => exact Laws.RowMatch.ppush x y
  | lagr => exact Laws.RowMatch.lagr

/-- Only RDCR has RDCR's mnemonic. -/
theorem eq_rdcr_of_mnemonic {i : Instr} (h : i.mnemonic = "RDCR") : ∃ n, i = .rdcr n := by
  cases i with
  | rdcr n => exact ⟨n, rfl⟩
  | _ => simp [Instr.mnemonic] at h

/-- A word that decodes is selected by the row of its command: for RDCR the number is in range. -/
theorem rowSelects_of_decode_ok {w : CommandWord} {i : Instr} (h : decode w = .ok i) :
    ∃ r ∈ opcodeRows, rowSelects w r = true ∧ r.mnemonic = i.mnemonic := by
  obtain ⟨hwf, rfl⟩ := onlyEncodingsDecode w i h
  obtain ⟨r, hr, hmn, hmatch⟩ := row_of_encode i
  refine ⟨r, hr, decide_eq_true ⟨hmatch, fun hp => ?_⟩, hmn⟩
  obtain ⟨n, rfl⟩ := eq_rdcr_of_mnemonic (hmn ▸ opcodeRows_rdcr r hr hp)
  rw [encode, fieldsOf_wordOf]
  exact of_decide_eq_true hwf

/-- Settles O8: a row's opcode is its own, and selection is legality. -/
theorem opcodeRowsSelectCommands : Obligations.OpcodeRowsSelectCommands := by
  refine ⟨fun w r hr r' hr' h h' => ?_, fun w => ⟨?_, ?_⟩, fun w i => rowSelects_of_decode_ok⟩
  · exact opcodeRows_op_injective r hr r' hr' ((op_of_row_match hr h).symm.trans (op_of_row_match hr' h'))
  · rintro ⟨i, h⟩
    obtain ⟨r, hr, hsel, -⟩ := rowSelects_of_decode_ok h
    exact ⟨r, hr, hsel⟩
  · rintro ⟨r, hr, hsel⟩
    exact decode_ok_of_rowSelects hr hsel

end Sys2Proof.Machine
end

section
/-! The count of legal words (spec/30_encoding.md R42): one for each well-formed command, counted format by format. -/

namespace Sys2Proof.Machine

/-- The well-formed commands as R42's sum: four of format Z, RDCR with its number, five of format A, three of format AB. -/
abbrev CommandForm : Type := Fin 4 ⊕ { n : Byte // n ≤ 0x04#8 } ⊕ (Fin 5 × Byte) ⊕ (Fin 3 × Byte × Byte)

/-- The place of a command in the sum. -/
def formOfCommand : { i : Instr // i.wellFormed = true } → CommandForm
  | ⟨.nop, _⟩ => .inl 0
  | ⟨.cclr, _⟩ => .inl 1
  | ⟨.pclr, _⟩ => .inl 2
  | ⟨.lagr, _⟩ => .inl 3
  | ⟨.rdcr n, h⟩ => .inr (.inl ⟨n, of_decide_eq_true h⟩)
  | ⟨.gfexp a, _⟩ => .inr (.inr (.inl (0, a)))
  | ⟨.gflog a, _⟩ => .inr (.inr (.inl (1, a)))
  | ⟨.cpush a, _⟩ => .inr (.inr (.inl (2, a)))
  | ⟨.peval a, _⟩ => .inr (.inr (.inl (3, a)))
  | ⟨.split a, _⟩ => .inr (.inr (.inl (4, a)))
  | ⟨.gfadd a b, _⟩ => .inr (.inr (.inr (0, a, b)))
  | ⟨.gfmul a b, _⟩ => .inr (.inr (.inr (1, a, b)))
  | ⟨.ppush a b, _⟩ => .inr (.inr (.inr (2, a, b)))

/-- The command at a place of the sum. -/
def commandOfForm : CommandForm → { i : Instr // i.wellFormed = true }
  | .inl 0 => ⟨.nop, rfl⟩
  | .inl 1 => ⟨.cclr, rfl⟩
  | .inl 2 => ⟨.pclr, rfl⟩
  | .inl 3 => ⟨.lagr, rfl⟩
  | .inr (.inl ⟨n, h⟩) => ⟨.rdcr n, decide_eq_true h⟩
  | .inr (.inr (.inl (0, a))) => ⟨.gfexp a, rfl⟩
  | .inr (.inr (.inl (1, a))) => ⟨.gflog a, rfl⟩
  | .inr (.inr (.inl (2, a))) => ⟨.cpush a, rfl⟩
  | .inr (.inr (.inl (3, a))) => ⟨.peval a, rfl⟩
  | .inr (.inr (.inl (4, a))) => ⟨.split a, rfl⟩
  | .inr (.inr (.inr (0, a, b))) => ⟨.gfadd a b, rfl⟩
  | .inr (.inr (.inr (1, a, b))) => ⟨.gfmul a b, rfl⟩
  | .inr (.inr (.inr (2, a, b))) => ⟨.ppush a b, rfl⟩

theorem commandOfForm_formOfCommand (i : { i : Instr // i.wellFormed = true }) :
    commandOfForm (formOfCommand i) = i := by
  obtain ⟨i, hi⟩ := i
  cases i <;> rfl

theorem formOfCommand_commandOfForm (f : CommandForm) : formOfCommand (commandOfForm f) = f := by
  rcases f with k | n | ⟨k, a⟩ | ⟨k, a, b⟩
  · fin_cases k <;> rfl
  · rfl
  · fin_cases k <;> rfl
  · fin_cases k <;> rfl

/-- Well-formed commands and places of the sum correspond one to one. -/
def commandFormEquiv : { i : Instr // i.wellFormed = true } ≃ CommandForm :=
  ⟨formOfCommand, commandOfForm, commandOfForm_formOfCommand, formOfCommand_commandOfForm⟩

theorem card_byte : Nat.card Byte = 256 := (Nat.card_congr BitVec.equivFin.toEquiv).trans (Nat.card_fin _)

/-- The numbers RDCR accepts are 0 to 4 (R42 (e)). -/
theorem card_registerNumber : Nat.card { n : Byte // n ≤ 0x04#8 } = 5 := by
  rw [Nat.card_eq_fintype_card]
  decide

/-- R42's sum: 4 + 5 + 5·256 + 3·65536. -/
theorem card_commandForm : Nat.card CommandForm = 197897 := by
  simp only [CommandForm, Nat.card_sum, Nat.card_prod, Nat.card_fin, card_byte, card_registerNumber]

/-- A legal word is the word of one well-formed command. -/
theorem encode_bijective_legal :
    Function.Bijective fun i : { i : Instr // i.wellFormed = true } =>
      (⟨encode i.1, i.1, decodeOfEncode i.1 i.2⟩ : Subtype fun w : CommandWord => ∃ i, decode w = .ok i) := by
  constructor
  · rintro ⟨i, hi⟩ ⟨j, hj⟩ h
    have hw : encode i = encode j := congrArg Subtype.val h
    have hd : (.ok i : Except Illegal Instr) = .ok j := by rw [← decodeOfEncode i hi, hw, decodeOfEncode j hj]
    injection hd with hd
    exact Subtype.ext hd
  · rintro ⟨w, i, h⟩
    obtain ⟨hi, hw⟩ := onlyEncodingsDecode w i h
    exact ⟨⟨i, hi⟩, Subtype.ext hw⟩

/-- Settles O9: as many legal words as well-formed commands. -/
theorem legalWordCount : Obligations.LegalWordCount :=
  calc Nat.card (Subtype fun w : CommandWord => ∃ i, decode w = .ok i)
    _ = Nat.card { i : Instr // i.wellFormed = true } := (Nat.card_congr (.ofBijective _ encode_bijective_legal)).symm
    _ = Nat.card CommandForm := Nat.card_congr commandFormEquiv
    _ = 197897 := card_commandForm

end Sys2Proof.Machine
end

section
/-! Counting words and commands (spec/30_encoding.md R44, spec/44_host_procedures.md R92). -/

namespace Sys2Proof.Machine

theorem takeIllegal_emits_one {s t : State} (h : takeIllegal s = .next t) : ∃ word, t.rsp = s.rsp ++ [word] := by
  rcases takeIllegal_next h with ⟨-, rfl⟩ | ⟨-, rfl⟩ <;> exact ⟨_, rfl⟩

/-- GFADD, GFMUL and GFEXP have this form. -/
theorem gated_finishing_emits_one {r : Byte} {s t : State} (h : unlessFaulted s (finishing r s) = .next t) :
    ∃ word, t.rsp = s.rsp ++ [word] := by
  rcases gated_finishing_next h with ⟨-, rfl⟩ | ⟨-, rfl⟩ <;> exact ⟨_, rfl⟩

/-- In each outcome a command other than SPLIT can have, it emits one word. -/
theorem exec_emits_one {i : Instr} (hi : ∀ n, i ≠ .split n) {s t : State} (h : exec i s = .next t) :
    ∃ word, t.rsp = s.rsp ++ [word] := by
  cases i with
  | nop => rcases execNop_next h with ⟨-, rfl⟩ | ⟨-, rfl⟩ <;> exact ⟨_, rfl⟩
  | rdcr n =>
    rcases execRdcr_next h with ⟨r, -, rfl⟩ | ⟨-, h⟩
    · exact ⟨_, rfl⟩
    · exact takeIllegal_emits_one h
  | gfadd a b => exact gated_finishing_emits_one h
  | gfmul a b => exact gated_finishing_emits_one h
  | gfexp a => exact gated_finishing_emits_one h
  | gflog a => rcases execGflog_next h with ⟨-, rfl⟩ | ⟨-, ⟨-, rfl⟩ | ⟨-, rfl⟩⟩ <;> exact ⟨_, rfl⟩
  | cclr => rcases execCclr_next h with ⟨-, rfl⟩ | ⟨-, rfl⟩ <;> exact ⟨_, rfl⟩
  | cpush a => rcases execCpush_next h with ⟨-, rfl⟩ | ⟨-, ⟨-, rfl⟩ | ⟨-, rfl⟩⟩ <;> exact ⟨_, rfl⟩
  | peval x =>
    rcases execPeval_next h with ⟨-, rfl⟩ | ⟨-, ⟨-, rfl⟩ | ⟨-, -, rfl⟩ | ⟨-, -, r, -, rfl⟩⟩ <;> exact ⟨_, rfl⟩
  | split n => exact absurd rfl (hi n)
  | pclr => rcases execPclr_next h with ⟨-, rfl⟩ | ⟨-, rfl⟩ <;> exact ⟨_, rfl⟩
  | ppush x y =>
    rcases execPpush_next h with ⟨-, rfl⟩ | ⟨-, ⟨-, rfl⟩ | ⟨-, -, rfl⟩ | ⟨-, -, -, rfl⟩⟩ <;> exact ⟨_, rfl⟩
  | lagr => rcases execLagr_next h with ⟨-, rfl⟩ | ⟨-, ⟨-, rfl⟩ | ⟨-, r, -, rfl⟩⟩ <;> exact ⟨_, rfl⟩

/-- The evaluator answers one value for each X (R69). -/
theorem State.evaluations_length {s : State} {n : Nat} {ys : List Byte} (h : s.evaluations n = .ok ys) :
    ys.length = n := by
  induction n generalizing ys with
  | zero =>
    injection h with h
    rw [← h, List.length_nil]
  | succ n ih =>
    rw [State.evaluations] at h
    split at h
    · rename_i zs hzs
      split at h
      · injection h with h
        rw [← h, List.length_append, ih hzs, List.length_singleton]
      · cases h
    · cases h

/-- SPLIT ends with a fault code in ERR and emits one word, or emits its count of words with ERR zero (R69, R44). -/
theorem execSplit_emits {n : Byte} {s t : State} (h : execSplit n s = .next t) :
    (t.err ≠ 0#8 ∧ ∃ word, t.rsp = s.rsp ++ [word]) ∨
      (t.err = 0#8 ∧ ∃ words, t.rsp = s.rsp ++ words ∧ words.length = n.toNat) := by
  rcases execSplit_next h with ⟨he, rfl⟩ | ⟨he, ⟨-, rfl⟩ | ⟨-, -, rfl⟩ | ⟨-, -, -, rfl⟩ | ⟨-, -, -, ys, hys, rfl⟩⟩
  · exact .inl ⟨he, _, rfl⟩
  · exact .inl ⟨FaultCode.range.code_range.1, _, rfl⟩
  · exact .inl ⟨FaultCode.empty.code_range.1, _, rfl⟩
  · exact .inl ⟨FaultCode.kn.code_range.1, _, rfl⟩
  · exact .inr ⟨he, _, rfl, by rw [List.length_map, State.evaluations_length hys]⟩

/-- Settles O22: SPLIT by its two outcomes, every other command emits one word whatever ERR is. -/
theorem responseWordCount : Obligations.ResponseWordCount := by
  intro i s t h
  by_cases hi : ∃ n, i = .split n
  · obtain ⟨n, rfl⟩ := hi
    rcases execSplit_emits h with ⟨he, word, hw⟩ | ⟨he, words, hw, hlen⟩
    · exact ⟨[word], hw, (if_neg he).symm⟩
    · exact ⟨words, hw, hlen.trans (if_pos he).symm⟩
  · have hns : ∀ n, i ≠ .split n := fun n hn => hi ⟨n, hn⟩
    obtain ⟨word, hw⟩ := exec_emits_one hns h
    have hcount : wordCount i = 1 := by
      unfold wordCount
      split
      · exact absurd rfl (hns _)
      · rfl
    exact ⟨[word], hw, by rw [hcount, ite_self, List.length_singleton]⟩

/-- A byte position takes CCLR, the secret byte, its coefficients, and SPLIT (R92). -/
theorem splitActions_length (n secretByte : Byte) (coefficients : List Byte) :
    (splitActions n secretByte coefficients).length = coefficients.length + 3 := by
  simp [splitActions]

/-- Settles O59: K - 1 coefficients make K + 2 commands at each position, and the last CCLR is one more. -/
theorem generateCommandCount : Obligations.GenerateCommandCount := by
  intro n k positions hk hlen
  have hpos : ∀ p ∈ positions, (splitActions n p.1 p.2).length = k + 2 := by
    intro p hp
    rw [splitActions_length, hlen p hp]
    omega
  rw [generateActions, List.length_append, List.length_flatMap, List.map_congr_left hpos, List.map_const',
    List.sum_replicate_nat, List.length_singleton]

end Sys2Proof.Machine
end

section
/-! Listed words, pseudo-instructions and assembly lines (spec/30_encoding.md R41, R47, R48). -/

namespace Sys2Proof.Machine

/-- Settles O10: each listed word is the word of its command's form. -/
theorem listedWordsDecode : Obligations.ListedWordsDecode :=
  ⟨decodeOfEncode .nop rfl, decodeOfEncode (.rdcr 4) rfl, decodeOfEncode (.gfadd 0x57#8 0x83#8) rfl,
    decodeOfEncode (.gfmul 3 3) rfl, decodeOfEncode (.gfexp 25) rfl, decodeOfEncode (.gflog 0x1D#8) rfl,
    decodeOfEncode .cclr rfl, decodeOfEncode (.cpush 0xDE#8) rfl, decodeOfEncode (.peval 2) rfl,
    decodeOfEncode (.split 255) rfl, decodeOfEncode .pclr rfl, decodeOfEncode (.ppush 0x02#8 0x58#8) rfl,
    decodeOfEncode .lagr rfl⟩

/-- Settles O11: each expansion is an entry of R48's table. -/
theorem pseudoInstructionExpansions : Obligations.PseudoInstructionExpansions :=
  ⟨fun _ _ => rfl, rfl, rfl, rfl, rfl, rfl⟩

/-- Settles O12: the assembler run on each listed line. -/
theorem listedLinesAssemble : Obligations.ListedLinesAssemble := by
  refine ⟨?_, ?_, ?_, ?_, ?_, ?_, ?_, ?_⟩ <;> decide

end Sys2Proof.Machine
end

section
/-! The step on an illegal word, and with nothing presented (spec/30_encoding.md R37, R42). -/

namespace Sys2Proof.Machine

/-- R42: the illegal word is taken off CMD, then ILLEGAL is taken. -/
theorem step_of_decode_error {s : State} {w : CommandWord} {rest : List HostAction} {e : Illegal}
    (hcmd : s.cmd = .command w :: rest) (hdec : decode w = .error e) : step s = takeIllegal (s.setCmd rest) := by
  simp only [step, hcmd, hdec]

theorem takeIllegal_of_ok {s : State} (h : s.err = 0#8) : takeIllegal s = .next (s.raise .illegal) :=
  unlessFaulted_of_ok h _

theorem takeIllegal_of_fault {s : State} (h : s.err ≠ 0#8) : takeIllegal s = .next s.answerLatched :=
  unlessFaulted_of_fault h _

/-- A number above 0x04 names no register, and is answered as an illegal word (R42 (e), log entry 7). -/
theorem execRdcr_of_gt {n : Byte} (hn : n > 0x04#8) (s : State) : execRdcr n s = takeIllegal s := by
  have hnone : ctrlRegOf n = none := by
    have h := ctrlRegOf_isSome n
    rw [decide_eq_false (BitVec.not_le.mpr hn)] at h
    simpa using h
  rw [execRdcr, hnone]

/-- Settles O14: by the two answers an illegal word can have. -/
theorem illegalWordRaisesIllegal : Obligations.IllegalWordRaisesIllegal := by
  refine ⟨fun s w rest e hcmd hdec herr => ?_, fun n hn => ⟨fun s herr => ?_, fun s herr => ?_⟩⟩
  · exact (step_of_decode_error hcmd hdec).trans (takeIllegal_of_ok (s := s.setCmd rest) herr)
  · exact (execRdcr_of_gt hn s).trans (takeIllegal_of_ok herr)
  · exact (execRdcr_of_gt hn s).trans (takeIllegal_of_fault herr)

/-- Settles O16: the first arm of the step. -/
theorem waitsForTheHost : Obligations.WaitsForTheHost := by
  intro s h
  simp only [step, h]

end Sys2Proof.Machine
end

section
/-! The field commands GFADD, GFMUL, GFEXP and GFLOG (spec/40_field.md R57 to R60): each is gated, and then answers its
value or takes its fault. The tables as the rules' text writes them are the tables the block reads. -/

namespace Sys2Proof.Machine

/-! ### Gated commands -/

/-- A command that stands behind the gate is not performed in the fault state (R101). -/
theorem latchedInFault_of_gated {i : Instr} {perform : State → Result}
    (h : ∀ s, exec i s = unlessFaulted s (perform s)) : LatchedInFault i :=
  fun s herr => (h s).trans (unlessFaulted_of_fault herr _)

/-- Out of the fault state a gated command that computed r answers it. -/
theorem answers_of_gated {i : Instr} {s : State} {r : Byte} (h : exec i s = unlessFaulted s (finishing r s))
    (herr : s.err = 0#8) : Answers i s r := h.trans (unlessFaulted_of_ok herr _)

/-- Out of the fault state a gated command that raised F takes its code (R100). -/
theorem raises_of_gated {i : Instr} {s : State} {f : FaultCode} (h : exec i s = unlessFaulted s (raising f s))
    (herr : s.err = 0#8) : Raises i s f.code := h.trans (unlessFaulted_of_ok herr _)

/-- Settles O26: the gate, then the exclusive-or. -/
theorem gfaddIsExclusiveOr : Obligations.GfaddIsExclusiveOr :=
  ⟨form_gfadd, fun _ _ => ⟨latchedInFault_of_gated fun _ => rfl, fun _ herr => answers_of_gated rfl herr⟩⟩

/-! ### The tables as the rules write them -/

/-- EXPS[n] of the rules' text is the entry the block reads at an 8-bit index (R11). -/
theorem State.expOf_eq_expAt (s : State) (i : Byte) : s.expOf i.toNat = s.expAt i := by
  have hi : i.toNat < 256 := i.isLt
  simp [State.expOf, State.expAt, hi]

/-- The same with the index a number below 256. -/
theorem State.expOf_eq_expAt_ofNat (s : State) {n : Nat} (hn : n < 256) : s.expOf n = s.expAt (BitVec.ofNat 8 n) := by
  rw [← s.expOf_eq_expAt, BitVec.toNat_ofNat, Nat.mod_eq_of_lt hn]

/-- LOGS[e] of the rules' text is the entry the block reads for a nonzero element (R12). -/
theorem State.logOf_eq_log (s : State) {e : Byte} (h : e ≠ 0#8) : s.logOf e = s.log e h := by
  have he : e.toNat - 1 < 255 := by have := e.isLt; omega
  simp [State.logOf, State.log, he]

/-- EXPS[n mod 255] of the rules' text (R51). -/
theorem State.expOf_mod (s : State) (n : Nat) : s.expOf (n % 255) = s.expMod n :=
  s.expOf_eq_expAt_ofNat (Nat.lt_trans (Nat.mod_lt n (by decide)) (by decide))

/-! ### The product by logarithms (R54) -/

@[simp] theorem State.gfMul_zero (s : State) (a : Byte) : s.gfMul a 0#8 = 0#8 := dif_pos (.inr rfl)

@[simp] theorem State.zero_gfMul (s : State) (b : Byte) : s.gfMul 0#8 b = 0#8 := dif_pos (.inl rfl)

/-- Two nonzero operands: EXPS at the sum of their logarithms mod 255. -/
theorem State.gfMul_of_ne_zero (s : State) {a b : Byte} (ha : a ≠ 0#8) (hb : b ≠ 0#8) :
    s.gfMul a b = s.expMod ((s.log a ha).toNat + (s.log b hb).toNat) := dif_neg (not_or.mpr ⟨ha, hb⟩)

/-! ### The tables the construction leaves -/

section

variable {s : State} (h : s.TablesBuilt)
include h

/-- Built tables are those of the reset state. -/
theorem State.TablesBuilt.expAt_eq (i : Byte) : s.expAt i = State.reset.expAt i := by
  simp only [State.expAt, h.1, State.reset_exps]

theorem State.TablesBuilt.log_eq (e : Byte) (he : e ≠ 0#8) : s.log e he = State.reset.log e he := by
  simp only [State.log, h.2, State.reset_logs]

theorem State.TablesBuilt.gfMul_eq (a b : Byte) : s.gfMul a b = State.reset.gfMul a b :=
  State.gfMul_congr (h.1.trans State.reset_exps.symm) (h.2.trans State.reset_logs.symm) a b

/-- R50 (c): no entry of EXPS is zero. -/
theorem State.TablesBuilt.expAt_ne_zero (i : Byte) : s.expAt i ≠ 0#8 := by
  rw [h.expAt_eq]
  exact reset_expAt_ne_zero i

/-- R50 (e): EXPS undoes LOGS. -/
theorem State.TablesBuilt.expAt_log {e : Byte} (he : e ≠ 0#8) : s.expAt (s.log e he) = e := by
  rw [h.expAt_eq, h.log_eq]
  exact reset_expAt_log e he

/-- EXPS[0] = 1, with the index mod 255. -/
theorem State.TablesBuilt.expMod_zero : s.expMod 0 = 0x01#8 := (h.expAt_eq _).trans reset_expAt_zero

/-- R51: EXPS at its 8-bit index is EXPS at the index mod 255, for EXPS[255] = EXPS[0]. -/
theorem State.TablesBuilt.expMod_toNat (i : Byte) : s.expMod i.toNat = s.expAt i := by
  by_cases hi : i = 0xFF#8
  · subst hi
    exact h.expMod_zero.trans ((h.expAt_eq _).trans reset_expAt_255).symm
  · have hlt : i.toNat < 255 := by bv_omega
    rw [State.expMod, Config.groupOrder, Nat.mod_eq_of_lt hlt, BitVec.ofNat_toNat, BitVec.setWidth_eq]

theorem State.TablesBuilt.expMod_ne_zero (n : Nat) : s.expMod n ≠ 0#8 := h.expAt_ne_zero _

/-- Every nonzero element is the power of 2 its logarithm names. -/
theorem State.TablesBuilt.expMod_log {e : Byte} (he : e ≠ 0#8) : s.expMod (s.log e he).toNat = e :=
  (h.expMod_toNat _).trans (h.expAt_log he)

end

/-- Powers depend on the exponent mod 255 only. -/
theorem State.expMod_congr (s : State) {m n : Nat} (hmn : m % 255 = n % 255) : s.expMod m = s.expMod n :=
  congrArg (fun k => s.expAt (BitVec.ofNat 8 k)) hmn

/-- GFMUL answers the product. -/
theorem gfmul_answers {s : State} (herr : s.err = 0#8) (a b : Byte) : Answers (.gfmul a b) s (s.gfMul a b) :=
  answers_of_gated rfl herr

/-- 0x01 = EXPS[255] is the unit: its logarithm adds 255. -/
theorem State.TablesBuilt.one_gfMul {s : State} (h : s.TablesBuilt) (b : Byte) : s.gfMul 0x01#8 b = b := by
  by_cases hb : b = 0#8
  · rw [hb, State.gfMul_zero]
  · rw [s.gfMul_of_ne_zero (by decide) hb, h.log_eq, reset_log_one]
    exact (s.expMod_congr (by simp)).trans (h.expMod_log hb)

/-- The products R58 lists. -/
theorem reset_gfMul_listed :
    State.reset.gfMul 0x02#8 0x80#8 = 0x1D#8 ∧ State.reset.gfMul 0x02#8 0x8E#8 = 0x01#8 ∧
      State.reset.gfMul 0xFF#8 0xFF#8 = 0xE2#8 ∧ State.reset.gfMul 0x03#8 0x03#8 = 0x05#8 := by decide +kernel

/-- Settles O27: the product's two cases, and the listed products on the tables after reset. -/
theorem gfmulByLogarithms : Obligations.GfmulByLogarithms := by
  refine ⟨form_gfmul, fun a b => ⟨latchedInFault_of_gated fun _ => rfl, fun s herr => ⟨fun hz => ?_, fun ha hb => ?_⟩⟩,
    fun s h herr => ?_⟩
  · have hv : s.gfMul a b = 0x00#8 := dif_pos hz
    exact hv ▸ gfmul_answers herr a b
  · rw [s.expOf_mod, s.logOf_eq_log ha, s.logOf_eq_log hb, ← s.gfMul_of_ne_zero ha hb]
    exact gfmul_answers herr a b
  · have hans : ∀ {a b r : Byte}, State.reset.gfMul a b = r → Answers (.gfmul a b) s r :=
      fun hr => ((h.gfMul_eq _ _).trans hr) ▸ gfmul_answers herr _ _
    obtain ⟨h1, h2, h3, h4⟩ := reset_gfMul_listed
    exact ⟨fun b => hans ((h.gfMul_eq _ _).symm.trans (h.one_gfMul b)), hans h1, hans h2, hans h3, hans h4⟩

/-- The entries of EXPS that R59 lists. -/
theorem reset_expAt_listed : State.reset.expAt 0x08#8 = 0x1D#8 ∧ State.reset.expAt 0x19#8 = 0x03#8 := by
  rw [reset_expAt, reset_expAt]
  decide +kernel

/-- Settles O28: the entry of EXPS, which on the built tables is a power of 2. -/
theorem gfexpReadsExps : Obligations.GfexpReadsExps := by
  refine ⟨form_gfexp, fun a => ⟨latchedInFault_of_gated fun _ => rfl, fun s herr => ?_⟩, fun s h => ⟨fun a => ?_, ?_⟩⟩
  · rw [s.expOf_eq_expAt]
    exact answers_of_gated rfl herr
  · rw [s.expOf_mod, s.expOf_eq_expAt, h.expMod_toNat]
    exact ⟨rfl, h.expAt_ne_zero a⟩
  · have hentry : ∀ {n : Nat} {r : Byte}, n < 256 → State.reset.expAt (BitVec.ofNat 8 n) = r → s.expOf n = r :=
      fun hn hr => (s.expOf_eq_expAt_ofNat hn).trans ((h.expAt_eq _).trans hr)
    exact ⟨hentry (by decide) reset_expAt_zero, hentry (by decide) reset_expAt_255,
      hentry (by decide) reset_expAt_listed.1, hentry (by decide) reset_expAt_listed.2⟩

/-- GFLOG on 0x00 is LOG0. -/
theorem execGflog_zero (s : State) : execGflog 0#8 s = unlessFaulted s (raising .log0 s) := rfl

/-- GFLOG on a nonzero element answers its logarithm. -/
theorem execGflog_of_ne_zero (s : State) {e : Byte} (he : e ≠ 0#8) :
    execGflog e s = unlessFaulted s (finishing (s.log e he) s) := congrArg (unlessFaulted s) (dif_neg he)

/-- The logarithms R60 lists beside LOGS[1]. -/
theorem reset_log_listed :
    State.reset.log 0x02#8 (by decide) = 0x01#8 ∧ State.reset.log 0x1D#8 (by decide) = 0x08#8 := by
  rw [reset_log, reset_log]
  decide +kernel

/-- Settles O29: by the two cases of the operand; EXPS undoes LOGS on the built tables. -/
theorem gflogReadsLogs : Obligations.GflogReadsLogs := by
  refine ⟨form_gflog, fun a => ⟨latchedInFault_of_gated fun _ => rfl, fun s herr => ⟨?_, fun ha => ?_⟩⟩,
    fun s h => ⟨fun a ha => ?_, ?_⟩⟩
  · rintro rfl
    exact raises_of_gated (i := .gflog 0#8) (execGflog_zero s) herr
  · rw [s.logOf_eq_log ha]
    exact answers_of_gated (execGflog_of_ne_zero s ha) herr
  · rw [s.logOf_eq_log ha, s.expOf_eq_expAt, h.log_eq]
    exact ⟨reset_log_ne_zero a ha, (h.expAt_eq _).trans (reset_expAt_log a ha)⟩
  · have hentry : ∀ {e r : Byte} (he : e ≠ 0#8), State.reset.log e he = r → s.logOf e = r :=
      fun he hr => (s.logOf_eq_log he).trans ((h.log_eq _ he).trans hr)
    exact ⟨hentry (by decide) (reset_log_one _), hentry (by decide) reset_log_listed.1,
      hentry (by decide) reset_log_listed.2⟩

end Sys2Proof.Machine
end

section
/-! The field (spec/40_field.md R53 to R55). Every nonzero element is a power of 2, so a product of nonzero elements adds
exponents mod 255; multiplication by 2 is R49's shift and reduction, which is additive, and so is every product. -/

namespace Sys2Proof.Machine

/-! ### Multiplication by 2 is R49's shift and reduction -/

/-- R49's step of the construction, on bytes. -/
def doubled (b : Byte) : Byte := BitVec.ofNat 8 (shiftReduce b.toNat)

/-- A shift, and the reduction constant when the top bit leaves (R49). -/
theorem doubled_eq_shift : ∀ b : Byte, doubled b = b <<< 1 ^^^ (if b.msb then 0x1D#8 else 0#8) := by decide +kernel

/-- A constant selected by the exclusive-or of two bits. -/
theorem selected_xor (p q : Bool) (r : Byte) :
    (if (p ^^ q) = true then r else 0#8) = (if p = true then r else 0#8) ^^^ (if q = true then r else 0#8) := by
  cases p <;> cases q <;> simp

theorem doubled_xor (b c : Byte) : doubled (b ^^^ c) = doubled b ^^^ doubled c := by
  rw [doubled_eq_shift, doubled_eq_shift, doubled_eq_shift, BitVec.shiftLeft_xor_distrib, BitVec.msb_xor, selected_xor]
  ac_rfl

/-- Each entry of EXPS is the one before it doubled, up to EXPS[255] (R49). -/
theorem reset_expAt_succ {i : Byte} (hi : i ≠ 0xFF#8) : State.reset.expAt (i + 1) = doubled (State.reset.expAt i) := by
  rw [reset_expAt, reset_expAt]
  revert i
  decide +kernel

/-! ### Products of powers of 2 -/

section

variable {s : State} (h : s.TablesBuilt)
include h

theorem State.TablesBuilt.expMod_succ (n : Nat) : s.expMod (n + 1) = doubled (s.expMod n) := by
  have hlt : n % 255 < 255 := Nat.mod_lt n (by decide)
  have hi : BitVec.ofNat 8 (n % 255) ≠ 0xFF#8 := by bv_omega
  have hn : (BitVec.ofNat 8 (n % 255) + 1).toNat = n % 255 + 1 := by bv_omega
  calc s.expMod (n + 1) = s.expMod (BitVec.ofNat 8 (n % 255) + 1).toNat :=
        s.expMod_congr (by rw [hn, Nat.mod_add_mod])
    _ = State.reset.expAt (BitVec.ofNat 8 (n % 255) + 1) := (h.expMod_toNat _).trans (h.expAt_eq _)
    _ = doubled (State.reset.expAt (BitVec.ofNat 8 (n % 255))) := reset_expAt_succ hi
    _ = doubled (s.expMod n) := congrArg doubled (h.expAt_eq _).symm

/-- Every nonzero element is a power of 2. -/
theorem State.TablesBuilt.exists_expMod {a : Byte} (ha : a ≠ 0#8) : ∃ n, s.expMod n = a := ⟨_, h.expMod_log ha⟩

/-- The logarithm of a power is its exponent mod 255; that of 1 is 255 and not 0. -/
theorem State.TablesBuilt.log_expMod_mod (n : Nat) : (s.log (s.expMod n) (h.expMod_ne_zero n)).toNat % 255 = n % 255 := by
  have hlt : n % 255 < 255 := Nat.mod_lt n (by decide)
  have hpow : s.expMod n = State.reset.expAt (BitVec.ofNat 8 (n % 255)) := h.expAt_eq _
  rw [h.log_eq]
  simp only [hpow]
  by_cases h0 : n % 255 = 0
  · simp only [h0, reset_expAt_zero, reset_log_one]
    rfl
  · rw [reset_log_expAt (by bv_omega), BitVec.toNat_ofNat, Nat.mod_eq_of_lt (a := n % 255) (by omega), Nat.mod_mod]

/-- Exponents add. -/
theorem State.TablesBuilt.expMod_gfMul_expMod (m n : Nat) : s.gfMul (s.expMod m) (s.expMod n) = s.expMod (m + n) := by
  rw [s.gfMul_of_ne_zero (h.expMod_ne_zero m) (h.expMod_ne_zero n)]
  refine s.expMod_congr ?_
  rw [Nat.add_mod, h.log_expMod_mod, h.log_expMod_mod, ← Nat.add_mod]

/-! ### The laws of multiplication -/

omit h in
theorem State.gfMul_comm (s : State) (a b : Byte) : s.gfMul a b = s.gfMul b a := by
  by_cases ha : a = 0#8
  · rw [ha, s.zero_gfMul, s.gfMul_zero]
  by_cases hb : b = 0#8
  · rw [hb, s.gfMul_zero, s.zero_gfMul]
  rw [s.gfMul_of_ne_zero ha hb, s.gfMul_of_ne_zero hb ha, Nat.add_comm]

theorem State.TablesBuilt.gfMul_assoc (a b c : Byte) : s.gfMul (s.gfMul a b) c = s.gfMul a (s.gfMul b c) := by
  by_cases ha : a = 0#8
  · simp [ha]
  by_cases hb : b = 0#8
  · simp [hb]
  by_cases hc : c = 0#8
  · simp [hc]
  obtain ⟨m, rfl⟩ := h.exists_expMod ha
  obtain ⟨n, rfl⟩ := h.exists_expMod hb
  obtain ⟨k, rfl⟩ := h.exists_expMod hc
  simp only [h.expMod_gfMul_expMod, Nat.add_assoc]

theorem State.TablesBuilt.gfMul_one (a : Byte) : s.gfMul a 0x01#8 = a := by
  rw [s.gfMul_comm, h.one_gfMul]

theorem State.TablesBuilt.eq_zero_of_gfMul {a b : Byte} (hab : s.gfMul a b = 0#8) : a = 0#8 ∨ b = 0#8 := by
  by_contra hne
  obtain ⟨ha, hb⟩ := not_or.mp hne
  rw [s.gfMul_of_ne_zero ha hb] at hab
  exact h.expMod_ne_zero _ hab

/-- R77's inverse: the exponents add to 255, and EXPS[255 mod 255] = 1. -/
theorem State.TablesBuilt.gfMul_gfInv {a : Byte} (ha : a ≠ 0#8) : s.gfMul a (s.gfInv a ha) = 0x01#8 := by
  have hle : (s.log a ha).toNat ≤ 255 := Nat.le_of_lt_succ (s.log a ha).isLt
  calc s.gfMul a (s.gfInv a ha)
      = s.gfMul (s.expMod (s.log a ha).toNat) (s.expMod (255 - (s.log a ha).toNat)) := by rw [h.expMod_log, State.gfInv]
    _ = s.expMod 255 := by rw [h.expMod_gfMul_expMod, Nat.add_sub_cancel' hle]
    _ = 0x01#8 := (s.expMod_congr (by rfl)).trans h.expMod_zero

/-- One more factor 2 is one more doubling. -/
theorem State.TablesBuilt.expMod_succ_gfMul (n : Nat) (b : Byte) :
    s.gfMul (s.expMod (n + 1)) b = doubled (s.gfMul (s.expMod n) b) := by
  by_cases hb : b = 0#8
  · rw [hb, s.gfMul_zero, s.gfMul_zero]
    rfl
  obtain ⟨m, rfl⟩ := h.exists_expMod hb
  rw [h.expMod_gfMul_expMod, h.expMod_gfMul_expMod, Nat.add_right_comm, h.expMod_succ]

/-- Multiplication by a power of 2 is additive, doubling by doubling. -/
theorem State.TablesBuilt.expMod_gfMul_xor (n : Nat) (b c : Byte) :
    s.gfMul (s.expMod n) (b ^^^ c) = s.gfMul (s.expMod n) b ^^^ s.gfMul (s.expMod n) c := by
  induction n with
  | zero => simp only [h.expMod_zero, h.one_gfMul]
  | succ n ih => simp only [h.expMod_succ_gfMul, ih, doubled_xor]

theorem State.TablesBuilt.gfMul_xor (a b c : Byte) : s.gfMul a (b ^^^ c) = s.gfMul a b ^^^ s.gfMul a c := by
  by_cases ha : a = 0#8
  · simp [ha]
  obtain ⟨n, rfl⟩ := h.exists_expMod ha
  exact h.expMod_gfMul_xor n b c

theorem State.TablesBuilt.xor_gfMul (a b c : Byte) : s.gfMul (a ^^^ b) c = s.gfMul a c ^^^ s.gfMul b c := by
  rw [s.gfMul_comm, h.gfMul_xor, s.gfMul_comm c a, s.gfMul_comm c b]

end

/-- Settles O31: addition is the exclusive-or; multiplication by the laws above. -/
theorem fieldLaws : Obligations.FieldLaws :=
  ⟨fun a b c => ⟨BitVec.xor_comm a b, BitVec.xor_assoc a b c, BitVec.xor_zero, BitVec.xor_self⟩,
    fun s h a b c => ⟨s.gfMul_comm a b, h.gfMul_assoc a b c, h.gfMul_xor a b c, h.gfMul_one a, s.gfMul_zero a,
      h.eq_zero_of_gfMul, fun ha => h.gfMul_gfInv ha⟩⟩

end Sys2Proof.Machine
end

section
/-! The product is the carry-less product reduced by 0x11D (spec/40_field.md R49, R55): both are additive in the second
operand, so it is enough to compare them on the powers x^k of the polynomial basis. -/

namespace Sys2Proof.Machine

/-! ### Additive maps of bit strings -/

/-- An additive map goes through a fold that adds the elements a test selects. -/
theorem map_foldl_select {α β ι : Type} [XorOp α] [XorOp β] {f : α → β} (hf : ∀ x y, f (x ^^^ y) = f x ^^^ f y)
    (p : ι → Bool) (e : ι → α) (l : List ι) (acc : α) :
    f (l.foldl (fun acc k => if p k then acc ^^^ e k else acc) acc) =
      l.foldl (fun acc k => if p k then acc ^^^ f (e k) else acc) (f acc) := by
  induction l generalizing acc with
  | nil => rfl
  | cons k l ih =>
    rw [List.foldl_cons, List.foldl_cons, ih]
    cases p k with
    | true => simp only [if_true, hf]
    | false => rfl

/-- A fold of additive steps is additive. -/
theorem foldl_xor_of_step_xor {ι : Type} {step : Nat → ι → Nat}
    (hstep : ∀ x y k, step (x ^^^ y) k = step x k ^^^ step y k) (l : List ι) (x y : Nat) :
    l.foldl step (x ^^^ y) = l.foldl step x ^^^ l.foldl step y := by
  induction l generalizing x y with
  | nil => rfl
  | cons k l ih => rw [List.foldl_cons, hstep, ih, List.foldl_cons, List.foldl_cons]

/-- One bit of the reduction: where bit 14 - k is set, 0x11D is added at that bit (R49). -/
def reduceBit (v k : Nat) : Nat := if v.testBit (14 - k) then v ^^^ (0x11D <<< (6 - k)) else v

theorem reduceBit_xor (v w k : Nat) : reduceBit (v ^^^ w) k = reduceBit v k ^^^ reduceBit w k := by
  unfold reduceBit
  rw [Nat.testBit_xor]
  cases v.testBit (14 - k) <;> cases w.testBit (14 - k) <;>
    simp [Nat.xor_assoc, Nat.xor_comm, Nat.xor_left_comm]

theorem reduce11D_eq (v : Nat) : reduce11D v = BitVec.ofNat 8 ((List.range 7).foldl reduceBit v) := rfl

theorem reduce11D_xor (v w : Nat) : reduce11D (v ^^^ w) = reduce11D v ^^^ reduce11D w := by
  rw [reduce11D_eq, foldl_xor_of_step_xor reduceBit_xor, BitVec.ofNat_xor, ← reduce11D_eq, ← reduce11D_eq]

/-! ### The two products on the polynomial basis -/

/-- A byte is the sum of the basis elements its bits select. -/
theorem eq_foldl_bits : ∀ b : Byte,
    b = (List.range 8).foldl (fun acc k => if b.getLsbD k then acc ^^^ BitVec.twoPow 8 k else acc) 0#8 := by
  decide +kernel

/-- The first eight powers of 2 are the basis. -/
theorem reset_expMod_eq_twoPow : ∀ k < 8, State.reset.expMod k = BitVec.twoPow 8 k := by decide +kernel

/-- Shifting by k and reducing is doubling k times. -/
theorem reduce11D_shiftLeft : ∀ k < 8, ∀ a : Byte, reduce11D (a.toNat <<< k) = doubled^[k] a := by decide +kernel

/-- And so is multiplying by the k-th power of 2. -/
theorem State.TablesBuilt.expMod_gfMul_eq_iterate {s : State} (h : s.TablesBuilt) (k : Nat) (a : Byte) :
    s.gfMul (s.expMod k) a = doubled^[k] a := by
  induction k with
  | zero => rw [h.expMod_zero, h.one_gfMul, Function.iterate_zero_apply]
  | succ k ih => rw [h.expMod_succ_gfMul, ih, Function.iterate_succ_apply']

theorem State.TablesBuilt.gfMul_twoPow {s : State} (h : s.TablesBuilt) {k : Nat} (hk : k < 8) (a : Byte) :
    s.gfMul a (BitVec.twoPow 8 k) = reduce11D (a.toNat <<< k) := by
  have hpow : s.expMod k = BitVec.twoPow 8 k := (h.expAt_eq _).trans (reset_expMod_eq_twoPow k hk)
  rw [reduce11D_shiftLeft k hk, ← hpow, s.gfMul_comm, h.expMod_gfMul_eq_iterate]

/-- Settles O30: bit by bit of the second operand. -/
theorem gfmulIsReducedCarrylessProduct : Obligations.GfmulIsReducedCarrylessProduct := by
  intro s h a b
  have hmul := map_foldl_select (h.gfMul_xor a) b.getLsbD (BitVec.twoPow 8) (List.range 8) 0#8
  have hred := map_foldl_select reduce11D_xor b.getLsbD (a.toNat <<< ·) (List.range 8) 0
  rw [← eq_foldl_bits] at hmul
  rw [carrylessProduct, hred, hmul, s.gfMul_zero]
  refine List.foldl_ext _ _ _ fun acc k hk => ?_
  rw [h.gfMul_twoPow (List.mem_range.mp hk)]

end Sys2Proof.Machine
end

section
/-! Evaluation of the split polynomial (spec/41_split.md R63, R66, R70). -/

namespace Sys2Proof.Machine

/-! ### One coefficient -/

/-- One coefficient is held at index 0 alone, under KC = 1. -/
theorem coefHeld_of_one {s : State} {c : Byte} (hkc : s.kc = 1#8) (hcoef : s.coef = Memory.ofBytes [c]) : s.CoefHeld := by
  rw [State.CoefHeld, hkc, hcoef]
  exact Memory.ofBytes_holds [c]

/-- Its Horner value is c ^ (00 · x): the zero operand reads no table. -/
theorem State.hornerValue_singleton (s : State) (c x : Byte) : s.hornerValue [c] x = c := by
  simp [State.hornerValue]

/-- PEVAL out of the fault state, on an X and a KC that raise nothing. -/
theorem execPeval_of_held {s : State} {x : Byte} (herr : s.err = 0#8) (hx : x ≠ 0#8) (hkc : s.kc ≠ 0#8) (h : s.CoefHeld) :
    execPeval x s = finishing (s.hornerValue s.coefficients x) s := by
  rw [execPeval, unlessFaulted_of_ok herr, if_neg hx, if_neg hkc, State.horner_ok h, withValue_ok]

/-- SPLIT out of the fault state, on an N that raises nothing: one word per share (R69). -/
theorem execSplit_of_held {s : State} {n : Byte} (herr : s.err = 0#8) (hn : n ≠ 0#8) (hkc : s.kc ≠ 0#8)
    (hle : s.kc.toNat ≤ n.toNat) (h : s.CoefHeld) {ys : List Byte}
    (hys : (List.range n.toNat).map (fun k => s.hornerValue s.coefficients (BitVec.ofNat 8 (k + 1))) = ys) :
    execSplit n s = .next ((s.emitAll ys).setRes (ys.getLastD s.res)) := by
  rw [execSplit, unlessFaulted_of_ok herr, if_neg hn, if_neg hkc, if_neg (by omega), State.evaluations_ok h, withValue_ok, hys]

/-- Settles O38: every Horner value is the coefficient. -/
theorem oneCoefficientIsConstant : Obligations.OneCoefficientIsConstant := by
  intro s c herr hkc hcoef
  have hheld := coefHeld_of_one hkc hcoef
  have hkc0 : s.kc ≠ 0#8 := by rw [hkc]; decide
  have hval : ∀ x, s.hornerValue s.coefficients x = c := fun x => by
    rw [State.coefficients, hcoef, Memory.ofBytes_values, s.hornerValue_singleton]
  refine ⟨fun x hx => ?_, fun n hn => ?_⟩
  · have hexec := execPeval_of_held herr hx hkc0 hheld
    rwa [hval] at hexec
  · have hpos : n.toNat ≠ 0 := fun h0 => hn (BitVec.eq_of_toNat_eq h0)
    have hle : s.kc.toNat ≤ n.toNat := by rw [hkc]; exact Nat.one_le_iff_ne_zero.mpr hpos
    have hys : (List.range n.toNat).map (fun k => s.hornerValue s.coefficients (BitVec.ofNat 8 (k + 1))) =
        List.replicate n.toNat c := by simp [hval]
    refine (execSplit_of_held herr hn hkc0 hle hheld hys).trans ?_
    simp [State.emitAll, State.setRes, List.getLastD_eq_getLast?, List.getLast?_replicate, hpos]

/-! ### Horner's method is the polynomial's value -/

/-- P(x) with one more coefficient at the top adds its power (R63). -/
theorem State.polyValue_append (s : State) (coeffs : List Byte) (c x : Byte) :
    s.polyValue (coeffs ++ [c]) x = s.polyValue coeffs x ^^^ s.gfMul c (s.gfPow x coeffs.length) := by
  rw [State.polyValue, Memory.ofBytes_append, List.foldl_append]
  rfl

/-- R66's loop started from an accumulator carries it up by x^K. -/
theorem State.TablesBuilt.horner_foldr {s : State} (h : s.TablesBuilt) (coeffs : List Byte) (x acc : Byte) :
    coeffs.foldr (fun c a => s.gfMul a x ^^^ c) acc =
      s.hornerValue coeffs x ^^^ s.gfMul acc (s.gfPow x coeffs.length) := by
  induction coeffs with
  | nil => exact ((BitVec.zero_xor).trans (h.gfMul_one acc)).symm
  | cons c cs ih =>
    calc (c :: cs).foldr (fun c a => s.gfMul a x ^^^ c) acc
        = s.gfMul (s.hornerValue cs x ^^^ s.gfMul acc (s.gfPow x cs.length)) x ^^^ c := by rw [List.foldr_cons, ih]
      _ = s.gfMul (s.hornerValue cs x) x ^^^ s.gfMul acc (s.gfPow x (cs.length + 1)) ^^^ c := by
        rw [h.xor_gfMul, h.gfMul_assoc, State.gfPow]
      _ = s.hornerValue (c :: cs) x ^^^ s.gfMul acc (s.gfPow x (c :: cs).length) := by
        rw [BitVec.xor_assoc, BitVec.xor_comm _ c, ← BitVec.xor_assoc]
        rfl

/-- Horner's method with one more coefficient at the top adds the same power. -/
theorem State.TablesBuilt.hornerValue_append {s : State} (h : s.TablesBuilt) (coeffs : List Byte) (c x : Byte) :
    s.hornerValue (coeffs ++ [c]) x = s.hornerValue coeffs x ^^^ s.gfMul c (s.gfPow x coeffs.length) := by
  have hacc : s.gfMul 0x00#8 x ^^^ c = c := by simp
  rw [State.hornerValue, List.foldr_append, List.foldr_cons, List.foldr_nil, hacc, h.horner_foldr]

/-- Settles O39: coefficient by coefficient, from the constant term up. -/
theorem hornerIsPolynomialValue : Obligations.HornerIsPolynomialValue := by
  intro s h coeffs x
  induction coeffs using List.reverseRecOn with
  | nil => rfl
  | append_singleton coeffs c ih => rw [h.hornerValue_append, s.polyValue_append, ih]

end Sys2Proof.Machine
end

section
/-! R75's loop is the Lagrange formula at X = 0 (spec/42_combine.md): each pass of the inner loop, on exponents, multiplies
by the factor X_j / (X_i ^ X_j). -/

namespace Sys2Proof.Machine

/-- One pass of R75's inner loop at the point with coordinate xi, over another coordinate xj, on the rules' tables. -/
def State.loopPass (s : State) (xi : Byte) (product : Nat) (xj : Byte) : Nat :=
  (product + (s.logOf xj).toNat + 255 - (s.logOf (xi ^^^ xj)).toNat) % 255

theorem State.loopPass_le (s : State) (xi : Byte) (product : Nat) (xj : Byte) : s.loopPass xi product xj ≤ 255 :=
  Nat.le_of_lt (Nat.mod_lt _ (by decide))

/-- The factor for another X coordinate (R75, R77). -/
theorem State.basisFactor_of_ne (s : State) {xi xj : Byte} (hd : gfAdd xi xj ≠ 0#8) :
    s.basisFactor xi xj = s.gfMul xj (s.gfInv (gfAdd xi xj) hd) := dif_neg hd

/-- The factor of a point with itself is 1. -/
theorem State.basisFactor_self (s : State) (x : Byte) : s.basisFactor x x = 0x01#8 := dif_pos (gfAdd_eq_zero.mpr rfl)

/-- The inner loop over the other points, from an exponent. -/
def State.loopExponent (s : State) (xi : Byte) (points : List (Byte × Byte)) (product : Nat) : Nat :=
  (points.filter fun q => q.1 ≠ xi).foldl (fun product q => s.loopPass xi product q.1) product

/-- What a point adds to the loop's sum. -/
def State.loopTerm (s : State) (points : List (Byte × Byte)) (p : Byte × Byte) : Byte :=
  if p.2 = 0#8 then 0x00#8 else s.expOf (s.loopExponent p.1 points (s.logOf p.2).toNat)

/-- What a point adds to the formula's sum. -/
def State.formulaTerm (s : State) (points : List (Byte × Byte)) (p : Byte × Byte) : Byte :=
  (points.map fun q => s.basisFactor p.1 q.1).foldl s.gfMul p.2

theorem State.lagrangeFormula_eq (s : State) (points : List (Byte × Byte)) :
    s.lagrangeFormula points = (points.map (s.formulaTerm points)).foldl gfAdd 0x00#8 := rfl

theorem State.lagrangeLoop_eq (s : State) (points : List (Byte × Byte)) :
    s.lagrangeLoop points = (points.map (s.loopTerm points)).foldl gfAdd 0x00#8 := by
  rw [List.foldl_map]
  refine List.foldl_ext _ _ _ fun sum p _ => ?_
  unfold State.loopTerm
  split
  · exact BitVec.xor_zero.symm
  · rfl

/-- A point with Y = 0 adds nothing to the formula either. -/
theorem State.foldl_gfMul_zero (s : State) (factors : List Byte) : factors.foldl s.gfMul 0#8 = 0#8 := by
  induction factors with
  | nil => rfl
  | cons f fs ih => rw [List.foldl_cons, s.zero_gfMul, ih]

theorem State.loopExponent_le (s : State) (xi : Byte) (points : List (Byte × Byte)) {product : Nat} (hp : product ≤ 255) :
    s.loopExponent xi points product ≤ 255 :=
  List.foldlRecOn (motive := (· ≤ 255)) _ _ hp fun _ _ _ _ => s.loopPass_le _ _ _

section

variable {s : State} (h : s.TablesBuilt)
include h

/-- EXPS at an index up to 255 is the power of 2, for EXPS[255] = EXPS[0] (R51). -/
theorem State.TablesBuilt.expOf_eq_expMod {n : Nat} (hn : n ≤ 255) : s.expOf n = s.expMod n := by
  have hto : (BitVec.ofNat 8 n).toNat = n := by rw [BitVec.toNat_ofNat]; omega
  rw [← hto, s.expOf_eq_expAt, h.expMod_toNat]

/-- Adding LOGS[X_j] and subtracting LOGS[X_i ^ X_j] multiplies by the factor (R75, R76). -/
theorem State.TablesBuilt.expMod_loopPass {xi xj : Byte} (hj : xj ≠ 0#8) (hne : xj ≠ xi) (product : Nat) :
    s.expMod (s.loopPass xi product xj) = s.gfMul (s.expMod product) (s.basisFactor xi xj) := by
  have hd : gfAdd xi xj ≠ 0#8 := fun h0 => hne (gfAdd_eq_zero.mp h0).symm
  have hle : (s.log (gfAdd xi xj) hd).toNat ≤ 255 := Nat.le_of_lt_succ (s.log _ hd).isLt
  have hpass : s.loopPass xi product xj =
      (product + ((s.log xj hj).toNat + (255 - (s.log (gfAdd xi xj) hd).toNat))) % 255 := by
    rw [State.loopPass, s.logOf_eq_log hj, show xi ^^^ xj = gfAdd xi xj from rfl, s.logOf_eq_log hd,
      Nat.add_sub_assoc hle, Nat.add_assoc]
  calc s.expMod (s.loopPass xi product xj)
      = s.expMod (product + ((s.log xj hj).toNat + (255 - (s.log (gfAdd xi xj) hd).toNat))) :=
        s.expMod_congr (by rw [hpass, Nat.mod_mod])
    _ = s.gfMul (s.expMod product)
        (s.gfMul (s.expMod (s.log xj hj).toNat) (s.expMod (255 - (s.log (gfAdd xi xj) hd).toNat))) := by
        rw [h.expMod_gfMul_expMod, h.expMod_gfMul_expMod]
    _ = s.gfMul (s.expMod product) (s.basisFactor xi xj) := by rw [h.expMod_log, s.basisFactor_of_ne hd, State.gfInv]

/-- The inner loop multiplies by the factors of all points: the one it skips has the factor 1. -/
theorem State.TablesBuilt.expMod_loopExponent (xi : Byte) (points : List (Byte × Byte))
    (hx : 0#8 ∉ points.map Prod.fst) (product : Nat) :
    s.expMod (s.loopExponent xi points product) =
      (points.map fun q => s.basisFactor xi q.1).foldl s.gfMul (s.expMod product) := by
  induction points generalizing product with
  | nil => rfl
  | cons q points ih =>
    rw [List.map_cons, List.mem_cons, not_or] at hx
    obtain ⟨hq, hx⟩ := hx
    rw [List.map_cons, List.foldl_cons]
    by_cases hqi : q.1 = xi
    · rw [State.loopExponent, List.filter_cons_of_neg (by simpa using hqi), hqi, s.basisFactor_self, h.gfMul_one]
      exact ih hx product
    · rw [State.loopExponent, List.filter_cons_of_pos (by simpa using hqi), List.foldl_cons,
        ← h.expMod_loopPass (Ne.symm hq) hqi]
      exact ih hx _

/-- Term by term the loop adds what the formula adds. -/
theorem State.TablesBuilt.loopTerm_eq (points : List (Byte × Byte)) (hx : 0#8 ∉ points.map Prod.fst) (p : Byte × Byte) :
    s.loopTerm points p = s.formulaTerm points p := by
  unfold State.loopTerm State.formulaTerm
  split
  · rename_i hy
    rw [hy, s.foldl_gfMul_zero]
  · rename_i hy
    have hlog : (s.log p.2 hy).toNat ≤ 255 := Nat.le_of_lt_succ (s.log p.2 hy).isLt
    rw [s.logOf_eq_log hy, h.expOf_eq_expMod (s.loopExponent_le _ _ hlog), h.expMod_loopExponent _ _ hx, h.expMod_log]

end

/-- Settles O43: term by term. Distinct X coordinates are not needed for it, only nonzero ones. -/
theorem loopIsLagrangeFormula : Obligations.LoopIsLagrangeFormula := by
  intro s h points _ _ hx
  rw [s.lagrangeLoop_eq, s.lagrangeFormula_eq, List.map_congr_left fun p _ => h.loopTerm_eq points hx p]

end Sys2Proof.Machine
end

section
/-! Only GFLOG 0x01 shows whether LOGS[1] is 255 or 0 (spec/40_field.md R56): every other use of a logarithm is reduced mod
255. A product reduces its sum; LAGR's exponent passes through at least one reducing step, for NP is at least 2. -/

namespace Sys2Proof.Machine

/-- The value of LOGS[1] forgotten. -/
def forgetLog1 (t : State) : State := t.withLog1 0x00#8

theorem State.withLog1_withLog1 (t : State) (v w : Byte) : (t.withLog1 v).withLog1 w = t.withLog1 w := by
  simp [State.withLog1]

/-- Two states that differ in LOGS[1] only agree when it is forgotten. -/
theorem forgetLog1_withLog1 (t : State) (v w : Byte) : forgetLog1 (t.withLog1 v) = forgetLog1 (t.withLog1 w) := by
  rw [forgetLog1, forgetLog1, t.withLog1_withLog1, t.withLog1_withLog1]

/-- The gate does not read the tables. -/
theorem gate_withLog1 {s : State} {v w : Byte} {p q : Result} (h : AgreeUpTo forgetLog1 p q) :
    AgreeUpTo forgetLog1 (unlessFaulted (s.withLog1 v) p) (unlessFaulted (s.withLog1 w) q) :=
  .gate rfl (forgetLog1_withLog1 s.answerLatched v w) h

/-! ### Logarithms mod 255 -/

/-- The other logarithms do not change. -/
theorem State.log_withLog1_of_ne_one (s : State) (v : Byte) {e : Byte} (he : e ≠ 0#8) (h1 : e ≠ 0x01#8) :
    (s.withLog1 v).log e he = s.log e he := by
  have hne : 0 ≠ e.toNat - 1 := by bv_omega
  simp only [State.log, State.withLog1_logs]
  exact Vector.getElem_set_ne _ _ hne

theorem State.log_withLog1_one (s : State) (v : Byte) (h : (0x01#8 : Byte) ≠ 0#8) : (s.withLog1 v).log 0x01#8 h = v := by
  simp [State.log]

/-- LOGS[1] = 255 and LOGS[1] = 0 are the same exponent mod 255. -/
theorem State.log_withLog1_mod (s : State) (e : Byte) (he : e ≠ 0#8) :
    ((s.withLog1 0x00#8).log e he).toNat % 255 = ((s.withLog1 0xFF#8).log e he).toNat % 255 := by
  by_cases h1 : e = 0x01#8
  · subst h1
    rw [State.log_withLog1_one, State.log_withLog1_one]
    rfl
  · rw [s.log_withLog1_of_ne_one _ he h1, s.log_withLog1_of_ne_one _ he h1]

/-! ### The product and the evaluator -/

theorem State.gfMul_withLog1 (s : State) (a b : Byte) : (s.withLog1 0x00#8).gfMul a b = (s.withLog1 0xFF#8).gfMul a b := by
  by_cases ha : a = 0#8
  · rw [ha, State.zero_gfMul, State.zero_gfMul]
  by_cases hb : b = 0#8
  · rw [hb, State.gfMul_zero, State.gfMul_zero]
  rw [State.gfMul_of_ne_zero _ ha hb, State.gfMul_of_ne_zero _ ha hb]
  refine State.expMod_congr (s.withLog1 0x00#8) ?_
  rw [Nat.add_mod, s.log_withLog1_mod, s.log_withLog1_mod, ← Nat.add_mod]

theorem State.hornerFrom_withLog1 (s : State) (x : Byte) (n : Nat) (acc : Byte) :
    (s.withLog1 0x00#8).hornerFrom x n acc = (s.withLog1 0xFF#8).hornerFrom x n acc := by
  induction n generalizing acc with
  | zero => rfl
  | succ n ih => simp only [State.hornerFrom, State.coefAt, State.withLog1_coef, s.gfMul_withLog1, ih]

theorem State.horner_withLog1 (s : State) (x : Byte) : (s.withLog1 0x00#8).horner x = (s.withLog1 0xFF#8).horner x :=
  s.hornerFrom_withLog1 x _ _

theorem State.evaluations_withLog1 (s : State) (n : Nat) :
    (s.withLog1 0x00#8).evaluations n = (s.withLog1 0xFF#8).evaluations n := by
  induction n with
  | zero => rfl
  | succ n ih => simp only [State.evaluations, ih, s.horner_withLog1]

/-! ### The interpolator -/

/-- A step of R75's inner loop reduces mod 255, so it makes equal what agrees mod 255. -/
theorem State.exponentStep_withLog1 (s : State) (xi xj : Byte) {p q : Nat} (hpq : p % 255 = q % 255) :
    (s.withLog1 0x00#8).exponentStep xi xj p = (s.withLog1 0xFF#8).exponentStep xi xj q := by
  by_cases hj : xj = 0#8
  · simp only [hj, State.exponentStep, State.logAt_zero]
  by_cases hd : gfAdd xi xj = 0#8
  · simp only [hd, State.exponentStep, State.logAt_zero, State.logAt_of_ne hj]
  have hlj := s.log_withLog1_mod xj hj
  have hld := s.log_withLog1_mod (gfAdd xi xj) hd
  have hle := ((s.withLog1 0x00#8).log (gfAdd xi xj) hd).isLt
  have hle' := ((s.withLog1 0xFF#8).log (gfAdd xi xj) hd).isLt
  rw [State.exponentStep_ok hj hd, State.exponentStep_ok hj hd]
  exact congrArg Except.ok (by omega)

/-- R75's inner loop: the exponents it starts from agree mod 255, and are equal unless a step follows. -/
theorem State.exponentLoop_withLog1 (s : State) (i : Nat) (xi : Byte) (js : List Nat) {p q : Nat}
    (hpq : p % 255 = q % 255) (hstep : p = q ∨ ∃ j ∈ js, j ≠ i) :
    (s.withLog1 0x00#8).exponentLoop i xi js p = (s.withLog1 0xFF#8).exponentLoop i xi js q := by
  induction js generalizing p q with
  | nil =>
    obtain rfl : p = q := by simpa using hstep
    rfl
  | cons j js ih =>
    unfold State.exponentLoop
    by_cases hji : j = i
    · rw [if_pos hji, if_pos hji]
      exact ih hpq (by simpa [hji] using hstep)
    · have hpass := fun xj => s.exponentStep_withLog1 xi xj hpq
      have hrest : ∀ r, (s.withLog1 0x00#8).exponentLoop i xi js r = (s.withLog1 0xFF#8).exponentLoop i xi js r :=
        fun r => ih rfl (.inl rfl)
      simp only [if_neg hji, State.pxAt, State.withLog1_px, hpass, hrest]

/-- With two or more points there is another one. -/
theorem exists_other_index {n : Nat} (hn : 2 ≤ n) (i : Nat) : ∃ j ∈ List.range n, j ≠ i := by
  by_cases hi : i = 0
  · exact ⟨1, List.mem_range.mpr hn, by omega⟩
  · exact ⟨0, List.mem_range.mpr (by omega), Ne.symm hi⟩

theorem State.termExponent_withLog1 (s : State) (hn : 2 ≤ s.np.toNat) (i : Nat) (y : Byte) (hy : y ≠ 0#8) :
    (s.withLog1 0x00#8).termExponent i y hy = (s.withLog1 0xFF#8).termExponent i y hy := by
  have hloop := fun xi => s.exponentLoop_withLog1 i xi (List.range s.np.toNat) (s.log_withLog1_mod y hy)
    (.inr (exists_other_index hn i))
  simp only [State.termExponent, State.pxAt, State.withLog1_px, State.withLog1_np, hloop]

theorem State.term_withLog1 (s : State) (hn : 2 ≤ s.np.toNat) (i : Nat) :
    (s.withLog1 0x00#8).term i = (s.withLog1 0xFF#8).term i := by
  simp only [State.term, State.pyAt, State.expAt, State.withLog1_py, State.withLog1_exps, s.termExponent_withLog1 hn]

theorem State.lagrange0_withLog1 (s : State) (hn : 2 ≤ s.np.toNat) :
    (s.withLog1 0x00#8).lagrange0 = (s.withLog1 0xFF#8).lagrange0 :=
  State.sumTerms_congr (s.term_withLog1 hn) _ _

/-! ### The commands -/

/-- A command whose next state does not look at the tables. -/
theorem AgreeUpTo.withLog1 (t : State) : AgreeUpTo forgetLog1 (.next (t.withLog1 0x00#8)) (.next (t.withLog1 0xFF#8)) :=
  .next (forgetLog1_withLog1 t _ _)

theorem takeIllegal_withLog1 (s : State) :
    AgreeUpTo forgetLog1 (takeIllegal (s.withLog1 0x00#8)) (takeIllegal (s.withLog1 0xFF#8)) :=
  gate_withLog1 (.withLog1 (s.raise .illegal))

/-- The control registers are not in the tables (R84). -/
theorem ctrl_withLog1 (s : State) (v : Byte) (r : CtrlReg) : (s.withLog1 v).ctrl r = s.ctrl r := by cases r <;> rfl

theorem execRdcr_withLog1 (s : State) (n : Byte) :
    AgreeUpTo forgetLog1 (execRdcr n (s.withLog1 0x00#8)) (execRdcr n (s.withLog1 0xFF#8)) := by
  unfold execRdcr
  split
  · rename_i r _
    rw [ctrl_withLog1, ctrl_withLog1]
    exact .withLog1 (s.emit 0x00#8 (s.ctrl r))
  · exact takeIllegal_withLog1 s

/-- A command that computed the same r from both. -/
theorem finishing_withLog1 (s : State) {r r' : Byte} (hr : r = r') :
    AgreeUpTo forgetLog1 (finishing r (s.withLog1 0x00#8)) (finishing r' (s.withLog1 0xFF#8)) := by
  subst hr
  exact .withLog1 ((s.setRes r).emit 0x00#8 r)

theorem raising_withLog1 (s : State) (f : FaultCode) :
    AgreeUpTo forgetLog1 (raising f (s.withLog1 0x00#8)) (raising f (s.withLog1 0xFF#8)) := .withLog1 (s.raise f)

/-- GFLOG of any operand but 0x01. -/
theorem execGflog_withLog1 (s : State) {e : Byte} (h1 : e ≠ 0x01#8) :
    AgreeUpTo forgetLog1 (execGflog e (s.withLog1 0x00#8)) (execGflog e (s.withLog1 0xFF#8)) := by
  by_cases he : e = 0#8
  · subst he
    exact gate_withLog1 (raising_withLog1 s .log0)
  · rw [execGflog_of_ne_zero _ he, execGflog_of_ne_zero _ he, s.log_withLog1_of_ne_one _ he h1,
      s.log_withLog1_of_ne_one _ he h1]
    exact gate_withLog1 (finishing_withLog1 s rfl)

theorem execPeval_withLog1 (s : State) (x : Byte) :
    AgreeUpTo forgetLog1 (execPeval x (s.withLog1 0x00#8)) (execPeval x (s.withLog1 0xFF#8)) :=
  gate_withLog1 (.ite (raising_withLog1 s .range) (.ite (raising_withLog1 s .empty)
    (.withValue (s.horner_withLog1 x) fun _ => finishing_withLog1 s rfl)))

theorem execSplit_withLog1 (s : State) (n : Byte) :
    AgreeUpTo forgetLog1 (execSplit n (s.withLog1 0x00#8)) (execSplit n (s.withLog1 0xFF#8)) :=
  gate_withLog1 (.ite (raising_withLog1 s .range) (.ite (raising_withLog1 s .empty) (.ite (raising_withLog1 s .kn)
    (.withValue (s.evaluations_withLog1 _) fun ys => .withLog1 ((s.emitAll ys).setRes (ys.getLastD s.res))))))

theorem execPpush_withLog1 (s : State) (x y : Byte) :
    AgreeUpTo forgetLog1 (execPpush x y (s.withLog1 0x00#8)) (execPpush x y (s.withLog1 0xFF#8)) := by
  have hv : (s.withLog1 0x00#8).findX x s.np.toNat 0 = (s.withLog1 0xFF#8).findX x s.np.toNat 0 :=
    State.findX_congr (s := s.withLog1 0x00#8) (t := s.withLog1 0xFF#8) rfl x _ _
  exact gate_withLog1 (.ite (raising_withLog1 s .range) (.withValue hv fun _ =>
    .ite (.withLog1 (s.setDup.emit 0x00#8 0x01#8)) (.ite rfl (.withLog1 ((s.pushPoint x y).emit 0x00#8 0x00#8)))))

/-- LAGR computes with two or more points only. -/
theorem execLagr_withLog1 (s : State) :
    AgreeUpTo forgetLog1 (execLagr (s.withLog1 0x00#8)) (execLagr (s.withLog1 0xFF#8)) := by
  refine gate_withLog1 ?_
  rw [State.withLog1_np, State.withLog1_np]
  by_cases hn : s.np.toNat < 2
  · rw [if_pos hn, if_pos hn]
    exact raising_withLog1 s .few
  · rw [if_neg hn, if_neg hn]
    exact .withValue (s.lagrange0_withLog1 (by omega)) fun _ => finishing_withLog1 s rfl

theorem exec_withLog1 (s : State) {i : Instr} (hi : i ≠ .gflog 0x01#8) :
    AgreeUpTo forgetLog1 (exec i (s.withLog1 0x00#8)) (exec i (s.withLog1 0xFF#8)) := by
  cases i with
  | nop => exact gate_withLog1 (.withLog1 (s.emit 0x00#8 0x00#8))
  | rdcr n => exact execRdcr_withLog1 s n
  | gfadd a b => exact gate_withLog1 (finishing_withLog1 s rfl)
  | gfmul a b => exact gate_withLog1 (finishing_withLog1 s (s.gfMul_withLog1 a b))
  | gfexp a => exact gate_withLog1 (finishing_withLog1 s rfl)
  | gflog e => exact execGflog_withLog1 s fun h1 => hi (congrArg Instr.gflog h1)
  | cclr => exact gate_withLog1 (.withLog1 (s.clearCoef.emit 0x00#8 0x00#8))
  | cpush a => exact gate_withLog1 (.ite (raising_withLog1 s .full) (.withLog1 ((s.pushCoef a).emit 0x00#8 0x00#8)))
  | peval x => exact execPeval_withLog1 s x
  | split n => exact execSplit_withLog1 s n
  | pclr => exact gate_withLog1 (.withLog1 (s.clearPoints.emit 0x00#8 0x00#8))
  | ppush x y => exact execPpush_withLog1 s x y
  | lagr => exact execLagr_withLog1 s

/-- No command writes the tables (R106). -/
theorem CommandEffect.logs {s t : State} (h : CommandEffect s t) : t.logs = s.logs := by
  cases h with
  | outputOnly h => rw [h.frame]
  | clearCoef | pushCoef | clearPoints | setDup | pushPoint => rfl

/-- Where LOGS[1] is 0x00 there is nothing to forget. -/
theorem forgetLog1_of_logs {s t : State} (h : t.logs = (s.withLog1 0x00#8).logs) : forgetLog1 t = t := by
  have hset : t.logs.set 0 0x00#8 = t.logs := by rw [h, State.withLog1_logs, Vector.set_set]
  rw [forgetLog1, State.withLog1, hset]

/-- Settles O32: the outcomes agree apart from LOGS[1], which no command writes. -/
theorem onlyGflogShowsLog1 : Obligations.OnlyGflogShowsLog1 := by
  intro i s hi
  exact (exec_withLog1 s hi).eq_mapNext fun t ht => forgetLog1_of_logs (exec_effect ht).logs

end Sys2Proof.Machine
end

section
/-! The split side's commands CCLR, CPUSH, PEVAL and SPLIT (spec/41_split.md R64, R65, R68, R69): the tests in their order,
then the effect. SPLIT N is PEVAL 1, ..., PEVAL N. -/

namespace Sys2Proof.Machine

/-! ### Loading the polynomial -/

/-- CCLR out of the fault state (R64). -/
theorem execCclr_of_ok {s : State} (herr : s.err = 0#8) : execCclr s = .next (s.clearCoef.emit 0x00#8 0x00#8) :=
  unlessFaulted_of_ok herr _

/-- Settles O33: the emptied buffer has no element to read. -/
theorem cclrEmptiesCoefficients : Obligations.CclrEmptiesCoefficients :=
  ⟨form_cclr, latchedInFault_of_gated fun _ => rfl, fun _ herr => ⟨_, execCclr_of_ok herr, fun _ => rfl, rfl⟩⟩

/-- CPUSH on a full buffer (R65). -/
theorem execCpush_of_full {s : State} (hkc : s.kc = 0xFF#8) (a : Byte) :
    execCpush a s = unlessFaulted s (raising .full s) :=
  congrArg (unlessFaulted s) (if_pos (congrArg BitVec.toNat hkc))

/-- CPUSH out of the fault state, with room for one more (R65). -/
theorem execCpush_of_room {s : State} (herr : s.err = 0#8) (hkc : s.kc.toNat ≠ 255) (a : Byte) :
    execCpush a s = .next ((s.pushCoef a).emit 0x00#8 0x00#8) :=
  (unlessFaulted_of_ok herr _).trans (if_neg hkc)

/-- Settles O34: the store is a write at index KC, and KC does not wrap below 255. -/
theorem cpushAppendsCoefficient : Obligations.CpushAppendsCoefficient := by
  refine ⟨form_cpush, fun a => ⟨latchedInFault_of_gated fun _ => rfl, fun s herr => ⟨fun hkc => ?_, fun hkc => ?_⟩⟩⟩
  · exact raises_of_gated (f := .full) (execCpush_of_full hkc a) herr
  · have hroom : s.kc.toNat ≠ 255 := fun h => hkc (BitVec.eq_of_toNat_eq h)
    exact ⟨_, execCpush_of_room herr hroom a, Memory.read_write_same _ _ _,
      fun j hj => Memory.read_write_other s.coef a hj, toNat_add_one_of_ne_255 hroom, rfl⟩

/-! ### Evaluation at one point -/

/-- PEVAL's test of X comes first (R68). -/
theorem execPeval_zero (s : State) : execPeval 0#8 s = unlessFaulted s (raising .range s) := rfl

/-- Then its test of KC (R68). -/
theorem execPeval_of_empty {s : State} {x : Byte} (hx : x ≠ 0#8) (hkc : s.kc = 0#8) :
    execPeval x s = unlessFaulted s (raising .empty s) :=
  congrArg (unlessFaulted s) ((if_neg hx).trans (if_pos hkc))

/-- At X = 1 the multiplications drop out, and Horner's method adds up the coefficients (R68). -/
theorem State.TablesBuilt.hornerValue_one {s : State} (h : s.TablesBuilt) (coeffs : List Byte) :
    s.hornerValue coeffs 0x01#8 = coeffs.foldl (· ^^^ ·) 0x00#8 := by
  rw [List.foldl_eq_foldr, State.hornerValue]
  refine List.foldr_ext _ _ _ fun c _ acc => ?_
  rw [h.gfMul_one, BitVec.xor_comm]

/-- Settles O35: the two tests, then the evaluator over the coefficients held. -/
theorem pevalEvaluatesPolynomial : Obligations.PevalEvaluatesPolynomial := by
  refine ⟨form_peval, fun x => ⟨latchedInFault_of_gated fun _ => rfl, fun s herr => ⟨?_, fun hx hkc => ?_, fun hx hkc h => ?_⟩⟩,
    fun _ h coeffs => h.hornerValue_one coeffs⟩
  · rintro rfl
    exact raises_of_gated (f := .range) (execPeval_zero s) herr
  · exact raises_of_gated (f := .empty) (execPeval_of_empty hx hkc) herr
  · exact execPeval_of_held herr hx hkc h

/-! ### Evaluation at 1, ..., N -/

/-- SPLIT's test of N comes first (R69). -/
theorem execSplit_zero (s : State) : execSplit 0#8 s = unlessFaulted s (raising .range s) := rfl

/-- Then its test of KC (R69). -/
theorem execSplit_of_empty {s : State} {n : Byte} (hn : n ≠ 0#8) (hkc : s.kc = 0#8) :
    execSplit n s = unlessFaulted s (raising .empty s) :=
  congrArg (unlessFaulted s) ((if_neg hn).trans (if_pos hkc))

/-- Then KC against N (R69). -/
theorem execSplit_of_gt {s : State} {n : Byte} (hn : n ≠ 0#8) (hkc : s.kc ≠ 0#8) (hgt : s.kc > n) :
    execSplit n s = unlessFaulted s (raising .kn s) :=
  congrArg (unlessFaulted s) ((if_neg hn).trans ((if_neg hkc).trans (if_pos hgt)))

/-- The last of the values at 1, ..., N is the value at N (R69). -/
theorem getLastD_values {n : Byte} (hn : n ≠ 0#8) (value : Byte → Byte) (d : Byte) :
    ((List.range n.toNat).map fun k => value (BitVec.ofNat 8 (k + 1))).getLastD d = value n := by
  obtain ⟨m, hm⟩ := Nat.exists_eq_succ_of_ne_zero fun h0 : n.toNat = 0 => hn (BitVec.eq_of_toNat_eq h0)
  have hlast : BitVec.ofNat 8 (m + 1) = n := by rw [← Nat.succ_eq_add_one, ← hm, BitVec.ofNat_toNat, BitVec.setWidth_eq]
  rw [hm, List.range_succ, List.map_append, List.map_singleton, List.getLastD_concat, hlast]

/-- Settles O36: the three tests, then one word per share. -/
theorem splitEmitsAllShares : Obligations.SplitEmitsAllShares := by
  refine ⟨form_split, fun n => ⟨latchedInFault_of_gated fun _ => rfl, fun s herr =>
    ⟨?_, fun hn hkc => ?_, fun hn hkc hgt => ?_, fun hn hkc hle h => ?_⟩⟩⟩
  · rintro rfl
    exact raises_of_gated (f := .range) (execSplit_zero s) herr
  · exact raises_of_gated (f := .empty) (execSplit_of_empty hn hkc) herr
  · exact raises_of_gated (f := .kn) (execSplit_of_gt hn hkc hgt) herr
  · refine (execSplit_of_held herr hn hkc hle h rfl).trans ?_
    rw [getLastD_values hn, State.emitAll, State.setRes, List.map_map]
    rfl

/-- One word, then the words of ys: the words of y :: ys (R69). -/
theorem State.emitAll_cons (s : State) (y r : Byte) (ys : List Byte) :
    ((s.setRes r).emit 0x00#8 y).emitAll ys = (s.emitAll (y :: ys)).setRes r := by
  simp [State.emitAll, State.emit, State.setRes]

/-- PEVALs one after another: COEF and KC stay, so each answers the same polynomial's value, and RES holds the last. -/
theorem execAll_peval {value : Byte → Byte} {xs : List Byte} (hx : 0#8 ∉ xs) {s : State} (herr : s.err = 0#8)
    (hkc : s.kc ≠ 0#8) (h : s.CoefHeld) (hvalue : ∀ x, s.hornerValue s.coefficients x = value x) :
    execAll (xs.map .peval) s = .next ((s.emitAll (xs.map value)).setRes ((xs.map value).getLastD s.res)) := by
  induction xs generalizing s with
  | nil => simp [execAll, State.emitAll, State.setRes]
  | cons x xs ih =>
    obtain ⟨hx0, hxs⟩ := not_or.mp (List.mem_cons.not.mp hx)
    have hpeval : exec (.peval x) s = .next ((s.setRes (value x)).emit 0x00#8 (value x)) :=
      hvalue x ▸ execPeval_of_held herr (Ne.symm hx0) hkc h
    have hrest := ih (s := (s.setRes (value x)).emit 0x00#8 (value x)) hxs herr hkc h hvalue
    rw [State.emitAll_cons] at hrest
    rw [List.map_cons, execAll, hpeval, List.map_cons, List.getLastD_cons]
    exact hrest

/-- Settles O37: both answer the values at 1, ..., N. -/
theorem splitIsPevalSequence : Obligations.SplitIsPevalSequence := by
  intro s n herr hn hkc hle h
  have hx : 0#8 ∉ (List.range n.toNat).map fun k => BitVec.ofNat 8 (k + 1) := by
    intro h0
    obtain ⟨k, hk, hz⟩ := List.mem_map.mp h0
    have := n.isLt
    have := List.mem_range.mp hk
    bv_omega
  have hseq := execAll_peval hx herr hkc h fun _ => rfl
  rw [List.map_map, List.map_map] at hseq
  exact (execSplit_of_held herr hn hkc hle h rfl).trans hseq.symm

end Sys2Proof.Machine
end

section
/-! The interpolator answers R75's loop over the points held (spec/42_combine.md R75, R79): the coordinates of point i are
element i of PX and element i of PY. -/

namespace Sys2Proof.Machine

/-- Point number i, for i below NP (R14). -/
def State.pointAt (s : State) (i : Nat) : Byte × Byte := s.points.getD i (0x00#8, 0x00#8)

/-! ### The points held -/

section

variable {s : State} (hp : s.PointsHeld)
include hp

theorem State.PointsHeld.map_fst_points : s.points.map Prod.fst = s.xs :=
  List.map_fst_zip (hp.1.length_values.trans hp.2.length_values.symm).le

theorem State.PointsHeld.length_points : s.points.length = s.np.toNat := by
  rw [← List.length_map Prod.fst, hp.map_fst_points]
  exact hp.1.length_values

theorem State.PointsHeld.pointAt_eq {i : Nat} (hi : i < s.np.toNat) :
    s.pointAt i = s.points[i]'(hp.length_points.symm ▸ hi) := List.getD_eq_getElem _ _ _

theorem State.PointsHeld.map_pointAt : (List.range s.np.toNat).map s.pointAt = s.points := by
  refine List.ext_getElem (by simp [hp.length_points]) fun i hi _ => ?_
  rw [List.getElem_map, List.getElem_range, hp.pointAt_eq (by simpa using hi)]

theorem State.PointsHeld.pxAt {i : Nat} (hi : i < s.np.toNat) : s.pxAt i = .ok (s.pointAt i).1 := by
  rw [hp.pointAt_eq hi, State.pxAt, hp.1.element .px hi]
  simp [State.points, State.xs]

theorem State.PointsHeld.pyAt {i : Nat} (hi : i < s.np.toNat) : s.pyAt i = .ok (s.pointAt i).2 := by
  rw [hp.pointAt_eq hi, State.pyAt, hp.2.element .py hi]
  simp [State.points]

/-- R15 of the points: distinct, nonzero X coordinates. -/
theorem State.PointsHeld.distinct_fst (hd : s.PointsDistinct) :
    (s.points.map Prod.fst).Nodup ∧ 0#8 ∉ s.points.map Prod.fst := by
  rw [hp.map_fst_points]
  exact hd

theorem State.PointsHeld.pointAt_fst_ne_zero (hd : s.PointsDistinct) {i : Nat} (hi : i < s.np.toNat) :
    (s.pointAt i).1 ≠ 0#8 := by
  rw [hp.pointAt_eq hi]
  exact fun h0 => (hp.distinct_fst hd).2 (h0 ▸ List.mem_map_of_mem (List.getElem_mem _))

theorem State.PointsHeld.eq_of_pointAt_fst (hd : s.PointsDistinct) {i j : Nat} (hi : i < s.np.toNat) (hj : j < s.np.toNat)
    (h : (s.pointAt i).1 = (s.pointAt j).1) : i = j := by
  rw [hp.pointAt_eq hi, hp.pointAt_eq hj] at h
  exact ((hp.distinct_fst hd).1.getElem_inj_iff (hi := by simpa [hp.length_points] using hi)
    (hj := by simpa [hp.length_points] using hj)).mp (by simpa using h)

/-! ### The loops -/

/-- R75's inner loop at point i: over the points of the list with another X. -/
theorem State.PointsHeld.exponentLoop (hd : s.PointsDistinct) {i : Nat} (hi : i < s.np.toNat) (js : List Nat)
    (hjs : ∀ j ∈ js, j < s.np.toNat) (product : Nat) :
    s.exponentLoop i (s.pointAt i).1 js product = .ok (s.loopExponent (s.pointAt i).1 (js.map s.pointAt) product) := by
  induction js generalizing product with
  | nil => rfl
  | cons j js ih =>
    obtain ⟨hj, hjs⟩ := List.forall_mem_cons.mp hjs
    by_cases hji : j = i
    · rw [State.exponentLoop, if_pos hji, ih hjs, hji, List.map_cons, State.loopExponent, State.loopExponent,
        List.filter_cons_of_neg (by simp)]
    · have hne : (s.pointAt j).1 ≠ (s.pointAt i).1 := fun h => hji (hp.eq_of_pointAt_fst hd hj hi h)
      have h0 := hp.pointAt_fst_ne_zero hd hj
      have hd0 : gfAdd (s.pointAt i).1 (s.pointAt j).1 ≠ 0#8 := fun h => hne (gfAdd_eq_zero.mp h).symm
      have hstep : s.exponentStep (s.pointAt i).1 (s.pointAt j).1 product =
          .ok (s.loopPass (s.pointAt i).1 product (s.pointAt j).1) := by
        rw [State.exponentStep_ok h0 hd0, State.loopPass, s.logOf_eq_log h0]
        exact congrArg (fun l : Byte => Except.ok ((product + _ + 255 - l.toNat) % 255)) (s.logOf_eq_log hd0).symm
      rw [State.exponentLoop, if_neg hji, hp.pxAt hj]
      simp only [hstep]
      rw [ih hjs, List.map_cons, State.loopExponent, State.loopExponent, List.filter_cons_of_pos (by simpa using hne),
        List.foldl_cons]

/-- What point i adds to the sum (R75). -/
theorem State.PointsHeld.term (hd : s.PointsDistinct) {i : Nat} (hi : i < s.np.toNat) :
    s.term i = .ok (s.loopTerm s.points (s.pointAt i)) := by
  rw [State.term, hp.pyAt hi, State.loopTerm]
  dsimp only
  split
  · rfl
  · rename_i hy
    have hlog : (s.log (s.pointAt i).2 hy).toNat ≤ 255 := Nat.le_of_lt_succ (s.log _ hy).isLt
    have hexp : s.termExponent i (s.pointAt i).2 hy =
        .ok (s.loopExponent (s.pointAt i).1 s.points (s.log (s.pointAt i).2 hy).toNat) := by
      rw [State.termExponent, hp.pxAt hi]
      dsimp only
      rw [hp.exponentLoop hd hi _ fun j hj => List.mem_range.mp hj, hp.map_pointAt]
    rw [hexp, s.logOf_eq_log hy]
    dsimp only
    rw [s.expOf_eq_expAt_ofNat (Nat.lt_succ_of_le (s.loopExponent_le _ _ hlog))]

/-- The interpolator answers the value of R75's loop over the points held. -/
theorem State.PointsHeld.lagrange0 (hd : s.PointsDistinct) : s.lagrange0 = .ok (s.lagrangeLoop s.points) := by
  rw [State.lagrange0, State.sumTerms_ok _ _ fun i hi => hp.term hd (List.mem_range.mp hi), s.lagrangeLoop_eq]
  conv_rhs => rw [← hp.map_pointAt, List.map_map, hp.map_pointAt]
  rfl

end

/-- LAGR out of the fault state, with two or more points held (R79). -/
theorem lagr_answers {s : State} (herr : s.err = 0#8) (hn : s.np ≥ 2#8) (hp : s.PointsHeld) (hd : s.PointsDistinct) :
    Answers .lagr s (s.lagrangeLoop s.points) := by
  have hnp : ¬s.np.toNat < 2 := Nat.not_lt.mpr hn
  refine answers_of_gated (congrArg (unlessFaulted s) ?_) herr
  rw [if_neg hnp, hp.lagrange0 hd, withValue_ok]

end Sys2Proof.Machine
end

section
/-! Interpolation recovers the constant term (spec/42_combine.md R75, R82). The bytes under the exclusive-or and GFMUL are
a field, and over a field the Lagrange formula at X = 0 is the value at 0 of the interpolating polynomial, which is the
only polynomial of its degree through the points. -/

namespace Sys2Proof.Machine

/-! ### The field -/

/-- An embedding of the bytes into a field, under which the exclusive-or is addition and GFMUL is multiplication. -/
structure State.FieldEmbedding (s : State) {K : Type} [Field K] (φ : Byte → K) : Prop where
  injective : Function.Injective φ
  map_zero : φ 0x00#8 = 0
  map_one : φ 0x01#8 = 1
  map_xor (a b : Byte) : φ (a ^^^ b) = φ a + φ b
  map_gfMul (a b : Byte) : φ (s.gfMul a b) = φ a * φ b

/-- A byte taken as an element of the field, apart from the arithmetic mod 256 of bit vectors. -/
structure FieldElement where
  byte : Byte

/-- The field of R55. -/
@[reducible] def fieldOfTables {s : State} (h : s.TablesBuilt) : Field FieldElement :=
  letI : Add FieldElement := ⟨fun a b => ⟨a.byte ^^^ b.byte⟩⟩
  letI : Mul FieldElement := ⟨fun a b => ⟨s.gfMul a.byte b.byte⟩⟩
  letI : Neg FieldElement := ⟨id⟩
  letI : Inv FieldElement := ⟨fun a => if ha : a.byte = 0#8 then ⟨0#8⟩ else ⟨s.gfInv a.byte ha⟩⟩
  letI : Zero FieldElement := ⟨⟨0x00#8⟩⟩
  letI : One FieldElement := ⟨⟨0x01#8⟩⟩
  Field.ofMinimalAxioms FieldElement
    (fun a b c => congrArg FieldElement.mk (BitVec.xor_assoc a.byte b.byte c.byte))
    (fun a => congrArg FieldElement.mk (BitVec.zero_xor (x := a.byte)))
    (fun a => congrArg FieldElement.mk (BitVec.xor_self (x := a.byte)))
    (fun a b c => congrArg FieldElement.mk (h.gfMul_assoc a.byte b.byte c.byte))
    (fun a b => congrArg FieldElement.mk (s.gfMul_comm a.byte b.byte))
    (fun a => congrArg FieldElement.mk (h.one_gfMul a.byte))
    (fun a ha => by
      have hb : a.byte ≠ 0#8 := fun h0 => ha (congrArg FieldElement.mk h0)
      exact (congrArg (a * ·) (dif_neg hb)).trans (congrArg FieldElement.mk (h.gfMul_gfInv hb)))
    (dif_pos rfl)
    (fun a b c => congrArg FieldElement.mk (h.gfMul_xor a.byte b.byte c.byte))
    ⟨⟨0x00#8⟩, ⟨0x01#8⟩, fun h01 => absurd (congrArg FieldElement.byte h01) (by decide)⟩

theorem State.TablesBuilt.exists_fieldEmbedding {s : State} (h : s.TablesBuilt) :
    ∃ (K : Type) (_ : Field K) (φ : Byte → K), s.FieldEmbedding φ :=
  letI := fieldOfTables h
  ⟨FieldElement, this, FieldElement.mk, fun _ _ hab => congrArg FieldElement.byte hab, rfl, rfl, fun _ _ => rfl,
    fun _ _ => rfl⟩

/-! ### Polynomials over the field -/

section

variable {s : State} {K : Type} [Field K] {φ : Byte → K} (hφ : s.FieldEmbedding φ)

open Polynomial

/-- The polynomial with the given coefficients, constant term first, as R66 evaluates it. -/
noncomputable def polynomialOf (φ : Byte → K) (coeffs : List Byte) : K[X] :=
  coeffs.foldr (fun c p => p * X + C (φ c)) 0

theorem polynomialOf_cons (φ : Byte → K) (c : Byte) (cs : List Byte) :
    polynomialOf φ (c :: cs) = polynomialOf φ cs * X + C (φ c) := rfl

theorem eval_zero_polynomialOf (φ : Byte → K) (c : Byte) (cs : List Byte) : (polynomialOf φ (c :: cs)).eval 0 = φ c := by
  simp [polynomialOf_cons]

theorem degree_polynomialOf_lt (φ : Byte → K) (coeffs : List Byte) : (polynomialOf φ coeffs).degree < coeffs.length := by
  induction coeffs with
  | nil => simp [polynomialOf]
  | cons c cs ih =>
    rw [degree_lt_iff_coeff_zero] at ih ⊢
    intro m hm
    obtain ⟨k, rfl⟩ := Nat.exists_eq_add_of_le' (Nat.le_trans (Nat.le_add_left 1 cs.length) hm)
    rw [polynomialOf_cons, coeff_add, coeff_mul_X, coeff_C_succ, ih k (Nat.le_of_succ_le_succ hm), add_zero]

include hφ

theorem State.FieldEmbedding.eval_polynomialOf (coeffs : List Byte) (x : Byte) :
    (polynomialOf φ coeffs).eval (φ x) = φ (s.hornerValue coeffs x) := by
  induction coeffs with
  | nil => exact eval_zero.trans hφ.map_zero.symm
  | cons c cs ih =>
    have hhorner : s.hornerValue (c :: cs) x = s.gfMul (s.hornerValue cs x) x ^^^ c := rfl
    rw [hhorner, hφ.map_xor, hφ.map_gfMul, ← ih, polynomialOf_cons, eval_add, eval_mul, eval_X, eval_C]

theorem State.FieldEmbedding.add_self (a : Byte) : φ a + φ a = 0 := by
  rw [← hφ.map_xor, BitVec.xor_self, hφ.map_zero]

/-- A byte is its own negative (R53). -/
theorem State.FieldEmbedding.neg_eq (a : Byte) : -φ a = φ a := neg_eq_of_add_eq_zero_left (hφ.add_self a)

/-- R77's inverse. -/
theorem State.FieldEmbedding.map_gfInv (h : s.TablesBuilt) {d : Byte} (hd : d ≠ 0#8) : φ (s.gfInv d hd) = (φ d)⁻¹ := by
  refine eq_inv_of_mul_eq_one_right ?_
  rw [← hφ.map_gfMul, h.gfMul_gfInv, hφ.map_one]

/-- The factor X_j / (X_i ^ X_j) is the basis divisor's value at 0. -/
theorem State.FieldEmbedding.map_basisFactor (h : s.TablesBuilt) {xi xj : Byte} (hne : xj ≠ xi) :
    φ (s.basisFactor xi xj) = (Lagrange.basisDivisor (φ xi) (φ xj)).eval 0 := by
  have hd : gfAdd xi xj ≠ 0#8 := fun h0 => hne (gfAdd_eq_zero.mp h0).symm
  rw [s.basisFactor_of_ne hd, hφ.map_gfMul, hφ.map_gfInv h, gfAdd, hφ.map_xor, Lagrange.basisDivisor, eval_mul, eval_C,
    eval_sub, eval_X, eval_C, zero_sub, hφ.neg_eq, sub_eq_add_neg, hφ.neg_eq, mul_comm]

theorem State.FieldEmbedding.map_foldl_gfMul (factors : List Byte) (y : Byte) :
    φ (factors.foldl s.gfMul y) = φ y * (factors.map φ).prod := by
  induction factors generalizing y with
  | nil => simp
  | cons f fs ih => rw [List.foldl_cons, ih, hφ.map_gfMul, List.map_cons, List.prod_cons, mul_assoc]

theorem State.FieldEmbedding.map_foldl_gfAdd (terms : List Byte) (sum : Byte) :
    φ (terms.foldl gfAdd sum) = φ sum + (terms.map φ).sum := by
  induction terms generalizing sum with
  | nil => simp
  | cons t ts ih => rw [List.foldl_cons, ih, gfAdd, hφ.map_xor, List.map_cons, List.sum_cons, add_assoc]

/-- A point's term of the formula is its Y times the basis polynomial's value at 0. -/
theorem State.FieldEmbedding.map_formulaTerm (h : s.TablesBuilt) {points : List (Byte × Byte)}
    (hnodup : (points.map Prod.fst).Nodup) (p : Byte × Byte) :
    φ (s.formulaTerm points p) = φ p.2 * (Lagrange.basis (points.map Prod.fst).toFinset φ p.1).eval 0 := by
  have hfactors : (points.map fun q => s.basisFactor p.1 q.1).map φ =
      (points.map Prod.fst).map fun x => φ (s.basisFactor p.1 x) := by simp
  rw [State.formulaTerm, hφ.map_foldl_gfMul, hfactors, ← List.prod_toFinset _ hnodup, Lagrange.basis, eval_prod]
  congr 1
  rw [← Finset.prod_erase _ (by rw [s.basisFactor_self, hφ.map_one])]
  exact Finset.prod_congr rfl fun x hx => hφ.map_basisFactor h (Finset.ne_of_mem_erase hx)

/-- The formula's value is the interpolating polynomial's at 0. -/
theorem State.FieldEmbedding.map_lagrangeFormula (h : s.TablesBuilt) {points : List (Byte × Byte)}
    (hnodup : (points.map Prod.fst).Nodup) {r : Byte → Byte} (hr : ∀ p ∈ points, p.2 = r p.1) :
    φ (s.lagrangeFormula points) = (Lagrange.interpolate (points.map Prod.fst).toFinset φ (φ ∘ r)).eval 0 := by
  have hterms : (points.map (s.formulaTerm points)).map φ =
      (points.map Prod.fst).map fun x => φ (r x) * (Lagrange.basis (points.map Prod.fst).toFinset φ x).eval 0 := by
    simp only [List.map_map]
    exact List.map_congr_left fun p hp => by simpa [hr p hp] using hφ.map_formulaTerm h hnodup p
  rw [s.lagrangeFormula_eq, hφ.map_foldl_gfAdd, hterms, hφ.map_zero, zero_add, ← List.sum_toFinset _ hnodup,
    Lagrange.interpolate_apply, eval_finsetSum]
  simp only [eval_mul, eval_C, Function.comp_apply]

end

/-- The Lagrange formula at X = 0 over points of one polynomial of degree less than their number is its constant term. -/
theorem State.TablesBuilt.lagrangeFormula_eq_constant {s : State} (h : s.TablesBuilt) {secret : Byte} {coeffs : List Byte}
    {points : List (Byte × Byte)} (hnodup : (points.map Prod.fst).Nodup)
    (hlen : (secret :: coeffs).length ≤ points.length)
    (hon : ∀ p ∈ points, p.2 = s.hornerValue (secret :: coeffs) p.1) : s.lagrangeFormula points = secret := by
  obtain ⟨K, _, φ, hφ⟩ := h.exists_fieldEmbedding
  have hcard : (points.map Prod.fst).toFinset.card = points.length := by
    rw [List.toFinset_card_of_nodup hnodup, List.length_map]
  have hdegree : (polynomialOf φ (secret :: coeffs)).degree < (points.map Prod.fst).toFinset.card :=
    (degree_polynomialOf_lt φ _).trans_le (by rw [hcard]; exact_mod_cast hlen)
  have hinterp := Lagrange.eq_interpolate_of_eval_eq (φ ∘ s.hornerValue (secret :: coeffs)) hφ.injective.injOn hdegree
    fun x _ => hφ.eval_polynomialOf (secret :: coeffs) x
  apply hφ.injective
  rw [hφ.map_lagrangeFormula h hnodup hon, ← hinterp, eval_zero_polynomialOf]

/-- Settles O45: LAGR answers R75's loop, the loop is the formula, and the formula is the constant term. -/
theorem lagrRecoversSecretByte : Obligations.LagrRecoversSecretByte := by
  intro s secret coeffs h herr hn hp hd hlen hon
  obtain ⟨hnodup, hx⟩ := hp.distinct_fst hd
  have hn2 : 2 ≤ s.points.length := hp.length_points ▸ hn
  have hvalue : s.lagrangeLoop s.points = secret :=
    (loopIsLagrangeFormula s h s.points hn2 hnodup hx).trans
      (h.lagrangeFormula_eq_constant hnodup (hp.length_points ▸ hlen) hon)
  exact hvalue ▸ lagr_answers herr hn hp hd

end Sys2Proof.Machine
end

section
/-! The combine side's commands PCLR, PPUSH and LAGR (spec/42_combine.md R73, R74, R79): the tests in order, then the
effect. R75's loop does not depend on the order of the points (R81). -/

namespace Sys2Proof.Machine

/-! ### Loading the points -/

/-- PCLR out of the fault state (R73). -/
theorem execPclr_of_ok {s : State} (herr : s.err = 0#8) : execPclr s = .next (s.clearPoints.emit 0x00#8 0x00#8) :=
  unlessFaulted_of_ok herr _

/-- Settles O40: the emptied spaces have no element to read. -/
theorem pclrEmptiesPoints : Obligations.PclrEmptiesPoints :=
  ⟨form_pclr, latchedInFault_of_gated fun _ => rfl, fun _ herr => ⟨_, execPclr_of_ok herr, fun _ => ⟨rfl, rfl⟩, rfl⟩⟩

/-- PPUSH's test of X comes first (R74). -/
theorem execPpush_zero (y : Byte) (s : State) : execPpush 0#8 y s = unlessFaulted s (raising .range s) := rfl

/-- PPUSH out of the fault state, on a nonzero X, goes by whether X is among those held (R74). -/
theorem execPpush_of_held {s : State} (herr : s.err = 0#8) (hp : s.PointsHeld) {x : Byte} (hx : x ≠ 0#8) (y : Byte) :
    execPpush x y s = if x ∈ s.xs then .next (s.setDup.emit 0x00#8 0x01#8) else storePoint x y s := by
  have hsearch : s.findX x s.np.toNat 0 = .ok (decide (x ∈ s.xs)) := State.findX_ok hp.1 x s.np.toNat 0 (Nat.zero_add _)
  rw [execPpush, unlessFaulted_of_ok herr, if_neg hx, hsearch, withValue_ok]
  simp only [decide_eq_true_eq]

/-- PPUSH of an X the buffer does not hold: there is room for it (R15, R74). -/
theorem execPpush_of_new {s : State} (herr : s.err = 0#8) (hp : s.PointsHeld) (hd : s.PointsDistinct) {x : Byte}
    (hx : x ≠ 0#8) (hnew : x ∉ s.xs) (y : Byte) :
    execPpush x y s = .next ((s.pushPoint x y).emit 0x00#8 0x00#8) := by
  rw [execPpush_of_held herr hp hx, if_neg hnew, storePoint_of_room (np_ne_255_of_new hp hd hx hnew)]

/-- Settles O41: the test of X, the search, and the store as a write at index NP, which does not wrap below 255. -/
theorem ppushStoresNewPoint : Obligations.PpushStoresNewPoint := by
  refine ⟨form_ppush, fun x y => ⟨latchedInFault_of_gated fun _ => rfl, fun s herr =>
    ⟨?_, fun hx hp hold => ?_, fun hx hp hd hnew => ?_⟩⟩⟩
  · rintro rfl
    exact raises_of_gated (f := .range) (execPpush_zero y s) herr
  · exact (execPpush_of_held herr hp hx y).trans (if_pos hold)
  · exact ⟨_, execPpush_of_new herr hp hd hx hnew y, Memory.read_write_same _ _ _, Memory.read_write_same _ _ _,
      fun i hi => ⟨Memory.read_write_other s.px x hi, Memory.read_write_other s.py y hi⟩,
      toNat_add_one_of_ne_255 (np_ne_255_of_new hp hd hx hnew), rfl⟩

/-! ### Interpolation -/

/-- LAGR's test of NP (R79). -/
theorem execLagr_of_few {s : State} (hn : s.np < 2#8) : execLagr s = unlessFaulted s (raising .few s) :=
  congrArg (unlessFaulted s) (if_pos hn)

/-- Settles O42: the test of NP, then the interpolator over the points held. -/
theorem lagrFollowsTheLoop : Obligations.LagrFollowsTheLoop :=
  ⟨form_lagr, latchedInFault_of_gated fun _ => rfl, fun _ herr =>
    ⟨fun hn => raises_of_gated (f := .few) (execLagr_of_few hn) herr, fun hn hp hd => lagr_answers herr hn hp hd⟩⟩

/-! ### The order of the points -/

/-- R75's loop reads only the tables. -/
theorem State.lagrangeLoop_congr {s t : State} (hexps : s.exps = t.exps) (hlogs : s.logs = t.logs)
    (points : List (Byte × Byte)) : s.lagrangeLoop points = t.lagrangeLoop points := by
  simp only [State.lagrangeLoop, State.expOf, State.logOf, hexps, hlogs]

/-- Two passes of the inner loop add their exponents mod 255, so they commute (R75). -/
theorem State.loopPass_right_comm (s : State) (xi : Byte) (product : Nat) (xj xk : Byte) :
    s.loopPass xi (s.loopPass xi product xj) xk = s.loopPass xi (s.loopPass xi product xk) xj := by
  have hj : (s.logOf (xi ^^^ xj)).toNat < 2 ^ 8 := (s.logOf (xi ^^^ xj)).isLt
  have hk : (s.logOf (xi ^^^ xk)).toNat < 2 ^ 8 := (s.logOf (xi ^^^ xk)).isLt
  simp only [State.loopPass]
  omega

section

variable {points points' : List (Byte × Byte)} (h : points.Perm points')
include h

theorem State.loopExponent_perm (s : State) (xi : Byte) (product : Nat) :
    s.loopExponent xi points product = s.loopExponent xi points' product :=
  (h.filter _).foldl_eq' (fun q _ r _ product => s.loopPass_right_comm xi product q.1 r.1) product

theorem State.loopTerm_perm (s : State) : s.loopTerm points = s.loopTerm points' := by
  funext p
  simp only [State.loopTerm, s.loopExponent_perm h]

/-- Each term is the same, and the exclusive-or adds them in any order (R81). -/
theorem State.lagrangeLoop_perm (s : State) : s.lagrangeLoop points = s.lagrangeLoop points' := by
  rw [s.lagrangeLoop_eq, s.lagrangeLoop_eq, s.loopTerm_perm h]
  refine (h.map _).foldl_eq' (fun a _ b _ sum => ?_) 0x00#8
  simp only [gfAdd, BitVec.xor_assoc, BitVec.xor_comm a b]

end

/-- Settles O44: each state answers R75's loop over its own points, and the two loops agree. -/
theorem lagrIgnoresPointOrder : Obligations.LagrIgnoresPointOrder := by
  intro s t hs ht hexps hlogs hns hnt hps hds hpt hdt hperm
  have hloop : s.lagrangeLoop s.points = t.lagrangeLoop t.points :=
    (s.lagrangeLoop_perm hperm).trans (State.lagrangeLoop_congr hexps hlogs t.points)
  exact ⟨_, lagr_answers hs hns hps hds, hloop ▸ lagr_answers ht hnt hpt hdt⟩

end Sys2Proof.Machine
end

section
/-! The system commands NOP and RDCR (spec/43_system.md R83, R84). RDCR is the one command without a gate. -/

namespace Sys2Proof.Machine

/-- NOP out of the fault state (R83). -/
theorem execNop_of_ok {s : State} (herr : s.err = 0#8) : execNop s = .next (s.emit 0x00#8 0x00#8) :=
  unlessFaulted_of_ok herr _

/-- Settles O23: the form of NOP's word, its gate, and the word it emits. -/
theorem nopChangesNothing : Obligations.NopChangesNothing :=
  ⟨form_nop, latchedInFault_of_gated fun _ => rfl, fun _ herr => execNop_of_ok herr⟩

/-- STATUS as the number R18 and R84 write: DUP + 2 · FLT. -/
theorem State.status_eq_ofNat (s : State) :
    s.status = BitVec.ofNat 8 ((if s.dup then 1 else 0) + 2 * (if s.err ≠ 0#8 then 1 else 0)) := by
  rw [State.status, State.flt]
  cases s.dup <;> by_cases herr : s.err = 0#8 <;> simp [herr]

/-- RDCR of a number that names a register reads it, whatever ERR is (R84). -/
theorem exec_rdcr_of_register {n : Byte} {r : CtrlReg} (hr : ctrlRegOf n = some r) (s : State) :
    exec (.rdcr n) s = .next (s.emit 0x00#8 (s.ctrl r)) := by
  rw [exec, execRdcr, hr]

/-- The step on an RDCR word that is illegal in form (R42, R84). -/
theorem step_of_malformed_rdcr {s : State} {n b z : Byte} {rest : List HostAction}
    (hcmd : s.cmd = .command (wordOf 0x01#8 n b z) :: rest) (hform : n > 0x04#8 ∨ b ≠ 0#8 ∨ z ≠ 0#8) :
    step s = takeIllegal (s.setCmd rest) := by
  obtain ⟨e, hdec⟩ : ∃ e, decode (wordOf 0x01#8 n b z) = .error e := rdcr_illegal_iff.mpr (by tauto)
  exact step_of_decode_error hcmd hdec

/-- Settles O24: the five numbers name the five registers, and a malformed word is an illegal one. -/
theorem rdcrReadsControlRegisters : Obligations.RdcrReadsControlRegisters := by
  refine ⟨fun s => ⟨?_, ?_, ?_, ?_, ?_⟩, fun n hn => ?_,
    fun s n b z rest hcmd hform => ⟨fun herr => ?_, fun herr => ?_⟩⟩
  · rw [← s.status_eq_ofNat]
    exact exec_rdcr_of_register (r := .status) rfl s
  · exact exec_rdcr_of_register (r := .err) rfl s
  · exact exec_rdcr_of_register (r := .kc) rfl s
  · exact exec_rdcr_of_register (r := .np) rfl s
  · exact exec_rdcr_of_register (r := .res) rfl s
  · exact decode_rdcr_ok_iff.mpr ⟨hn, rfl, rfl, rfl⟩
  · exact (step_of_malformed_rdcr hcmd hform).trans (takeIllegal_of_ok (s := s.setCmd rest) herr)
  · exact (step_of_malformed_rdcr hcmd hform).trans (takeIllegal_of_fault (s := s.setCmd rest) herr)

end Sys2Proof.Machine
end

section
/-! The host's byte codec and the share's wire form (spec/44_host_procedures.md R88 to R90, R93). -/

namespace Sys2Proof.Machine

/-! ### Digits and bytes -/

/-- The character R89 writes for a 4-bit value is a digit of that value under R88, capitals or not. -/
@[simp] theorem hexDigit_hexChar (capitals : Bool) (v : BitVec 4) : hexDigit capitals (hexChar v) = some v := by
  decide +revert

/-- The two halves R89 writes make up the byte again, the high half first. -/
@[simp] theorem byte_halves_append (v : Byte) : v.extractLsb' 4 4 ++ v.extractLsb' 0 4 = v :=
  (BitVec.extractLsb'_append_extractLsb'_eq_extractLsb' rfl).trans BitVec.extractLsb'_eq_self

/-- A byte's two characters at the head of the text give the byte, and the rest is read as before. -/
theorem hexToBytes_hexByte_append {capitals : Bool} {text : List Char} {bs : List Byte}
    (h : hexToBytes capitals text = .ok bs) (v : Byte) : hexToBytes capitals (hexByte v ++ text) = .ok (v :: bs) := by
  simp [hexByte, hexToBytes, h]

theorem bytesToHex_cons (v : Byte) (bs : List Byte) : bytesToHex (v :: bs) = hexByte v ++ bytesToHex bs :=
  List.flatMap_cons

/-- Two characters for each byte (R89). -/
@[simp] theorem length_bytesToHex (bs : List Byte) : (bytesToHex bs).length = 2 * bs.length := by
  induction bs with
  | nil => rfl
  | cons v bs ih => rw [bytesToHex_cons, List.length_append, ih, List.length_cons, Nat.mul_succ, Nat.add_comm]; rfl

/-- Settles O56, by induction on the bytes: each is read back from its own two characters. -/
theorem hexRoundTrip : Obligations.HexRoundTrip := by
  intro capitals bs
  induction bs with
  | nil => rfl
  | cons v bs ih => exact hexToBytes_hexByte_append ih v

/-! ### Shares -/

/-- A wire form is the hexadecimal text of the id and the payload in one list (R90). -/
theorem Share.wire_eq_bytesToHex (sh : Share) : sh.wire = bytesToHex (sh.id :: sh.payload) :=
  (bytesToHex_cons sh.id sh.payload).symm

/-- A text parses to a share exactly when its bytes are the id and then the payload, and the id is not zero (R93; log
entry 15). -/
theorem parseShare_ok_iff {capitals : Bool} {text : List Char} {sh : Share} :
    parseShare capitals text = .ok sh ↔ hexToBytes capitals text = .ok (sh.id :: sh.payload) ∧ sh.id ≠ 0#8 := by
  obtain ⟨id, payload⟩ := sh
  rw [parseShare]
  split
  next h => simp [h]
  next b bs h =>
    simp only [h, Except.ok.injEq, List.cons.injEq]
    split
    next hzero =>
      refine iff_of_false nofun ?_
      rintro ⟨⟨rfl, -⟩, hid⟩
      exact hid hzero
    next hb =>
      rw [Except.ok.injEq, Share.mk.injEq]
      exact (and_iff_left_of_imp fun hsame => hsame.1 ▸ hb).symm
  next h => simp [h]

/-- Settles O57: the length is that of the hexadecimal text, and the round trip gives the id and the payload back. -/
theorem shareWireForm : Obligations.ShareWireForm := by
  intro capitals sh
  rw [sh.wire_eq_bytesToHex]
  refine ⟨?_, fun hid => parseShare_ok_iff.mpr ⟨hexRoundTrip capitals _, hid⟩⟩
  rw [length_bytesToHex, List.length_cons, Nat.mul_succ, Nat.add_comm]

/-! ### The accepted shares -/

/-- Every parsed share is the parse of one of the texts. -/
theorem parseShare_of_mem_parseShares {capitals : Bool} {texts : List (List Char)} {shares : List Share}
    (h : parseShares capitals texts = .ok shares) {sh : Share} (hsh : sh ∈ shares) :
    ∃ text ∈ texts, parseShare capitals text = .ok sh := by
  induction texts generalizing shares with
  | nil =>
    cases h
    cases hsh
  | cons text texts ih =>
    rw [parseShares] at h
    split at h
    next s ss hs hss =>
      cases h
      obtain rfl | hmem := List.mem_cons.mp hsh
      · exact ⟨text, List.mem_cons_self, hs⟩
      · obtain ⟨t, ht, hparse⟩ := ih hss hmem
        exact ⟨t, List.mem_cons_of_mem _ ht, hparse⟩
    all_goals cases h

/-- Skipping the shares whose id was seen keeps the ids accepted distinct (R93). -/
theorem nodup_ids_acceptShares {accepted : List Share} (h : (accepted.map Share.id).Nodup) (shares : List Share) :
    ((acceptShares accepted shares).map Share.id).Nodup := by
  induction shares generalizing accepted with
  | nil => exact h
  | cons s shares ih =>
    rw [acceptShares]
    split
    next => exact ih h
    next hnew =>
      refine ih ?_
      rw [List.map_append]
      exact h.append (List.nodup_singleton _) (List.disjoint_singleton.mpr hnew)

/-- Accepting invents no share. -/
theorem mem_of_mem_acceptShares {accepted shares : List Share} {sh : Share} (h : sh ∈ acceptShares accepted shares) :
    sh ∈ accepted ∨ sh ∈ shares := by
  induction shares generalizing accepted with
  | nil => exact .inl h
  | cons s shares ih =>
    rw [acceptShares] at h
    split at h
    next => exact (ih h).imp_right (List.mem_cons_of_mem s)
    next =>
      obtain hacc | hrest := ih h
      · simpa [or_assoc] using Or.inl hacc
      · exact .inr (List.mem_cons_of_mem s hrest)

/-- What readShares answers: the shares accepted of those parsed, which are a first and a second at least, each payload as
long as the first's (R93). -/
theorem readShares_ok {capitals : Bool} {texts : List (List Char)} {shares : List Share}
    (h : readShares capitals texts = .ok shares) :
    ∃ parsed, parseShares capitals texts = .ok parsed ∧ shares = acceptShares [] parsed ∧ 2 ≤ shares.length ∧
      ∃ len, ∀ sh ∈ shares, sh.payload.length = len := by
  rw [readShares] at h
  split at h
  next => cases h
  next parsed hparsed =>
    split at h
    next s t rest haccept =>
      split at h
      next hall =>
        cases h
        refine ⟨parsed, hparsed, haccept.symm, Nat.le_add_left 2 _, s.payload.length, ?_⟩
        simpa using hall
      next => cases h
    next => cases h

/-- Settles O60: distinctness is the skipping of seen ids, and the rest is what the parse and the two last tests check. -/
theorem acceptedSharesAreUsable : Obligations.AcceptedSharesAreUsable := by
  intro capitals texts shares h
  obtain ⟨parsed, hparsed, rfl, htwo, len, hlen⟩ := readShares_ok h
  refine ⟨htwo, nodup_ids_acceptShares (accepted := []) List.nodup_nil parsed, fun sh hsh => ?_,
    fun a ha b hb => (hlen a ha).trans (hlen b hb).symm⟩
  have hmem : sh ∈ parsed := (mem_of_mem_acceptShares hsh).resolve_left List.not_mem_nil
  obtain ⟨text, -, htext⟩ := parseShare_of_mem_parseShares hparsed hmem
  exact (parseShare_ok_iff.mp htext).2

end Sys2Proof.Machine
end

section
/-! The host's draw of coefficients (spec/44_host_procedures.md R91). -/

namespace Sys2Proof.Machine

/-- A nonzero byte is taken at once, whatever redraws are left (R91). -/
theorem drawCoefficient_of_ne_zero {b : Byte} (hb : b ≠ 0#8) (redraws : Nat) (source : List Byte) :
    drawCoefficient redraws (b :: source) = some (b, source) := by
  cases redraws <;> exact if_neg hb

/-- A zero with no redraw left ends the draw (R91). -/
theorem drawCoefficient_zero_of_no_redraw (source : List Byte) : drawCoefficient 0 (0#8 :: source) = none := rfl

/-- A zero uses up one redraw (R91). -/
theorem drawCoefficient_zero_of_redraw (redraws : Nat) (source : List Byte) :
    drawCoefficient (redraws + 1) (0#8 :: source) = drawCoefficient redraws source := rfl

/-- A draw that answers answers a nonzero byte. -/
theorem ne_zero_of_drawCoefficient {redraws : Nat} {source rest : List Byte} {c : Byte}
    (h : drawCoefficient redraws source = some (c, rest)) : c ≠ 0#8 := by
  induction source generalizing redraws with
  | nil => cases redraws <;> cases h
  | cons b source ih =>
    by_cases hb : b = 0#8
    · subst hb
      cases redraws with
      | zero => cases h
      | succ redraws => exact ih h
    · rw [drawCoefficient_of_ne_zero hb] at h
      cases h
      exact hb

/-- Drawing one coefficient more is one draw, then the others from the rest of the source. -/
theorem drawCoefficients_succ_eq_some_iff {redraws count : Nat} {source cs rest : List Byte} :
    drawCoefficients redraws (count + 1) source = some (cs, rest) ↔
      ∃ c source' cs', drawCoefficient redraws source = some (c, source') ∧
        drawCoefficients redraws count source' = some (cs', rest) ∧ cs = c :: cs' := by
  rw [drawCoefficients]
  cases hdraw : drawCoefficient redraws source with
  | none => simp
  | some drawn =>
    obtain ⟨c, source'⟩ := drawn
    cases hrest : drawCoefficients redraws count source' with
    | none => simp [hrest]
    | some others => simp [hrest, Prod.ext_iff, eq_comm, and_comm]

/-- As many coefficients as asked for, none of them zero (R91). -/
theorem drawCoefficients_count_and_ne_zero {redraws count : Nat} {source cs rest : List Byte}
    (h : drawCoefficients redraws count source = some (cs, rest)) : cs.length = count ∧ ∀ c ∈ cs, c ≠ 0#8 := by
  induction count generalizing source cs with
  | zero =>
    cases h
    simp
  | succ count ih =>
    obtain ⟨c, source', cs', hdraw, hrest, rfl⟩ := drawCoefficients_succ_eq_some_iff.mp h
    obtain ⟨hlength, hne⟩ := ih hrest
    exact ⟨congrArg (· + 1) hlength, List.forall_mem_cons.mpr ⟨ne_zero_of_drawCoefficient hdraw, hne⟩⟩

/-- A draw from some zeros before a nonzero byte gets to it exactly when there are as many redraws as zeros (R91). -/
theorem drawCoefficient_replicate_zero {b : Byte} (hb : b ≠ 0#8) (redraws zeros : Nat) (rest : List Byte) :
    drawCoefficient redraws (List.replicate zeros 0#8 ++ b :: rest) = if zeros ≤ redraws then some (b, rest) else none := by
  induction zeros generalizing redraws with
  | zero => rw [if_pos redraws.zero_le]; exact drawCoefficient_of_ne_zero hb redraws rest
  | succ zeros ih =>
    rw [List.replicate_succ, List.cons_append]
    cases redraws with
    | zero => exact drawCoefficient_zero_of_no_redraw _
    | succ redraws => rw [drawCoefficient_zero_of_redraw, ih]; simp only [Nat.add_le_add_iff_right]

/-- Settles O58, by induction on the coefficients drawn and on the zeros before the nonzero byte. -/
theorem drawnCoefficientsAreNonzero : Obligations.DrawnCoefficientsAreNonzero :=
  ⟨fun _ _ _ _ _ h => drawCoefficients_count_and_ne_zero h,
    fun redraws zeros _ rest hb => drawCoefficient_replicate_zero hb redraws zeros rest⟩

end Sys2Proof.Machine
end

section
/-! Coefficients leave the block only through PEVAL and SPLIT (spec/60_exceptions.md R104): no other command reads COEF. -/

namespace Sys2Proof.Machine

/-- COEF replaced. -/
def State.withCoef (s : State) (m : Memory) : State := { s with coef := m }

/-- Every element of COEF forgotten. -/
def forgetCoef (t : State) : State := t.withCoef []

/-- The gate does not read COEF. -/
theorem gate_withCoef {s : State} {m : Memory} {p q : Result} (h : AgreeUpTo forgetCoef p q) :
    AgreeUpTo forgetCoef (unlessFaulted (s.withCoef m) p) (unlessFaulted s q) := .gate rfl rfl h

/-- No control register shows COEF (R20). -/
theorem ctrl_withCoef (s : State) (m : Memory) (c : CtrlReg) : (s.withCoef m).ctrl c = s.ctrl c := by
  cases c <;> rfl

theorem execRdcr_withCoef (s : State) (m : Memory) (n : Byte) :
    AgreeUpTo forgetCoef (execRdcr n (s.withCoef m)) (execRdcr n s) := by
  unfold execRdcr
  split
  · rw [ctrl_withCoef]
    exact .next rfl
  · exact gate_withCoef (.next rfl)

theorem execGfmul_withCoef (s : State) (m : Memory) (a b : Byte) :
    AgreeUpTo forgetCoef (execGfmul a b (s.withCoef m)) (execGfmul a b s) := by
  have hv : (s.withCoef m).gfMul a b = s.gfMul a b := State.gfMul_congr rfl rfl a b
  unfold execGfmul
  rw [hv]
  exact gate_withCoef (.next rfl)

theorem execGflog_withCoef (s : State) (m : Memory) (e : Byte) :
    AgreeUpTo forgetCoef (execGflog e (s.withCoef m)) (execGflog e s) := by
  refine gate_withCoef ?_
  split <;> exact .next rfl

/-- The combine side neither reads nor writes the split side, COEF included (R35). -/
theorem OnCombineSide.withCoef {i : Instr} (hi : OnCombineSide i) (s : State) (m : Memory) :
    AgreeUpTo forgetCoef (exec i (s.withCoef m)) (exec i s) := by
  have hsep : exec i (s.withCoef m) = mapNext (·.withCoefficients m s.kc) (exec i s) :=
    splitAndCombineSidesAreSeparate.2 i s m s.kc hi
  rw [hsep]
  cases h : exec i s with
  | next t =>
    rw [← hi.keeps_coefficients h]
    exact .next rfl
  | fault e => rfl
  | refused r => rfl

/-- Every command but PEVAL and SPLIT has the same outcome apart from COEF, whatever COEF held. -/
theorem exec_withCoef (s : State) (m : Memory) {i : Instr} (hpeval : ∀ x, i ≠ .peval x) (hsplit : ∀ n, i ≠ .split n) :
    AgreeUpTo forgetCoef (exec i (s.withCoef m)) (exec i s) := by
  cases i with
  | nop => exact gate_withCoef (.next rfl)
  | rdcr n => exact execRdcr_withCoef s m n
  | gfadd a b => exact gate_withCoef (.next rfl)
  | gfmul a b => exact execGfmul_withCoef s m a b
  | gfexp a => exact gate_withCoef (.next rfl)
  | gflog e => exact execGflog_withCoef s m e
  | cclr => exact gate_withCoef (.next rfl)
  | cpush a => exact gate_withCoef (.ite (.next rfl) (.next rfl))
  | peval x => exact absurd rfl (hpeval x)
  | split n => exact absurd rfl (hsplit n)
  | pclr => exact OnCombineSide.withCoef (.inl rfl) s m
  | ppush x y => exact OnCombineSide.withCoef (.inr (.inl ⟨x, y, rfl⟩)) s m
  | lagr => exact OnCombineSide.withCoef (.inr (.inr rfl)) s m

/-- Settles O51: a change of COEF is what `State.withCoef` names. -/
theorem coefficientsLeaveOnlyByEvaluation : Obligations.CoefficientsLeaveOnlyByEvaluation := by
  intro i s m hpeval hsplit
  exact exec_withCoef s m hpeval hsplit

end Sys2Proof.Machine
end

section
/-! Fault entry (spec/60_exceptions.md R98, R100): performed with ERR = 0, a command completes with ERR still zero or takes
one of its own faults, and an illegal word takes ILLEGAL. -/

namespace Sys2Proof.Machine

/-- How a command performed with ERR = 0 ends: it completes, or takes a fault with one of the given codes. -/
inductive CompletesOrRaises (codes : List Byte) (s t : State) : Prop where
  | completes (herr : t.err = 0#8)
  | raises (f : FaultCode) (hf : f.code ∈ codes) (h : t = s.raise f)

/-- With ERR = 0 the gate's answer is not among a command's outcomes. -/
theorem performed_of_ok {s t : State} {performed : Prop} (herr : s.err = 0#8)
    (h : (s.err ≠ 0#8 ∧ t = s.answerLatched) ∨ (s.err = 0#8 ∧ performed)) : performed :=
  h.elim (fun hfault => absurd herr hfault.1) And.right

/-- A well-formed RDCR names a register, so it has no fault of its own (R20, R84). -/
theorem execRdcr_completes {n : Byte} (hn : n ≤ 0x04#8) {s t : State} (herr : s.err = 0#8) (h : execRdcr n s = .next t) :
    t.err = 0#8 := by
  rcases execRdcr_next h with ⟨r, -, rfl⟩ | ⟨hnone, -⟩
  · exact herr
  · have hsome := ctrlRegOf_isSome n
    simp [hnone, hn] at hsome

/-- R98's table, command by command: what a command raises, it raises by fault entry and nothing else. -/
theorem exec_completesOrRaises {i : Instr} (hi : i.wellFormed = true) {s t : State} (herr : s.err = 0#8)
    (h : exec i s = .next t) : CompletesOrRaises (raisable i) s t := by
  cases i with
  | nop =>
    obtain rfl := performed_of_ok herr (execNop_next h)
    exact .completes herr
  | rdcr n => exact .completes (execRdcr_completes (of_decide_eq_true hi) herr h)
  | gfadd a b =>
    obtain rfl := performed_of_ok herr (execGfadd_next h)
    exact .completes herr
  | gfmul a b =>
    obtain rfl := performed_of_ok herr (execGfmul_next h)
    exact .completes herr
  | gfexp a =>
    obtain rfl := performed_of_ok herr (execGfexp_next h)
    exact .completes herr
  | gflog a =>
    rcases performed_of_ok herr (execGflog_next h) with ⟨-, rfl⟩ | ⟨-, rfl⟩
    · exact .raises .log0 (.head _) rfl
    · exact .completes herr
  | cclr =>
    obtain rfl := performed_of_ok herr (execCclr_next h)
    exact .completes herr
  | cpush a =>
    rcases performed_of_ok herr (execCpush_next h) with ⟨-, rfl⟩ | ⟨-, rfl⟩
    · exact .raises .full (.head _) rfl
    · exact .completes herr
  | peval x =>
    rcases performed_of_ok herr (execPeval_next h) with ⟨-, rfl⟩ | ⟨-, -, rfl⟩ | ⟨-, -, r, -, rfl⟩
    · exact .raises .range (.head _) rfl
    · exact .raises .empty (.tail _ (.head _)) rfl
    · exact .completes herr
  | split n =>
    rcases performed_of_ok herr (execSplit_next h) with
      ⟨-, rfl⟩ | ⟨-, -, rfl⟩ | ⟨-, -, -, rfl⟩ | ⟨-, -, -, ys, -, rfl⟩
    · exact .raises .range (.head _) rfl
    · exact .raises .empty (.tail _ (.head _)) rfl
    · exact .raises .kn (.tail _ (.tail _ (.head _))) rfl
    · exact .completes herr
  | pclr =>
    obtain rfl := performed_of_ok herr (execPclr_next h)
    exact .completes herr
  | ppush x y =>
    rcases performed_of_ok herr (execPpush_next h) with ⟨-, rfl⟩ | ⟨-, -, rfl⟩ | ⟨-, -, -, rfl⟩
    · exact .raises .range (.head _) rfl
    · exact .completes herr
    · exact .completes herr
  | lagr =>
    rcases performed_of_ok herr (execLagr_next h) with ⟨-, rfl⟩ | ⟨-, r, -, rfl⟩
    · exact .raises .few (.head _) rfl
    · exact .completes herr

/-- Settles O53: ERR nonzero rules out that the command completed. -/
theorem commandsRaiseTheirFaults : Obligations.CommandsRaiseTheirFaults := by
  intro i s t hi herr h hfault
  cases exec_completesOrRaises hi herr h with
  | completes hok => exact absurd hok hfault
  | raises f hf ht => rwa [ht]

/-- A step on a command word that ends with ERR nonzero from ERR = 0 took a fault in the state without the word (R100). -/
theorem step_eq_raise_of_fault {s t : State} {w : CommandWord} {rest : List HostAction}
    (hcmd : s.cmd = .command w :: rest) (herr : s.err = 0#8) (h : step s = .next t) (hfault : t.err ≠ 0#8) :
    ∃ f, t = (s.setCmd rest).raise f := by
  cases hdec : decode w with
  | error e =>
    rw [step_of_decode_error hcmd hdec, takeIllegal_of_ok (s := s.setCmd rest) herr] at h
    injection h with h
    exact ⟨.illegal, h.symm⟩
  | ok i =>
    rw [step_of_decode_ok hcmd hdec] at h
    have hi := (onlyEncodingsDecode w i hdec).1
    cases exec_completesOrRaises (s := s.setCmd rest) hi herr h with
    | completes hok => exact absurd hok hfault
    | raises f _ ht => exact ⟨f, ht⟩

/-- Settles O52: fault entry writes ERR and one word, and its code is one of the seven. -/
theorem faultEntryWritesOnlyErr : Obligations.FaultEntryWritesOnlyErr := by
  intro s t w rest hcmd herr h hfault
  obtain ⟨f, rfl⟩ := step_eq_raise_of_fault hcmd herr h hfault
  obtain ⟨hne, hlow, hhigh⟩ := f.code_range
  exact ⟨hlow, hhigh, (State.flt_iff _).mpr hne, rfl⟩

end Sys2Proof.Machine
end

section
/-! The fault state (spec/60_exceptions.md R101, R102): RDCR alone is performed, every other word is answered with the
latched code, and only a reset leaves. -/

namespace Sys2Proof.Machine

/-- Every command but RDCR stands behind the gate (R101). -/
theorem latchedInFault_of_ne_rdcr {i : Instr} (hi : ∀ n, i ≠ .rdcr n) : LatchedInFault i := by
  cases i with
  | rdcr n => exact absurd rfl (hi n)
  | nop | gfadd | gfmul | gfexp | gflog | cclr | cpush | peval | split | pclr | ppush | lagr =>
    exact latchedInFault_of_gated fun _ => rfl

/-- A word taken off CMD changes no control register (R20). -/
@[simp] theorem State.setCmd_ctrl (s : State) (actions : List HostAction) (r : CtrlReg) :
    (s.setCmd actions).ctrl r = s.ctrl r := by
  cases r <;> rfl

/-- A word that is no legal RDCR is answered with the latched code, whether it decodes or not (R101). -/
theorem step_latched {s : State} {w : CommandWord} {rest : List HostAction} (hcmd : s.cmd = .command w :: rest)
    (herr : s.err ≠ 0#8) (hw : ∀ n, decode w ≠ .ok (.rdcr n)) : step s = .next (s.setCmd rest).answerLatched := by
  cases hdec : decode w with
  | error e => exact (step_of_decode_error hcmd hdec).trans (takeIllegal_of_fault (s := s.setCmd rest) herr)
  | ok i =>
    have hi : ∀ n, i ≠ .rdcr n := fun n hn => hw n (hn ▸ hdec)
    exact (step_of_decode_ok hcmd hdec).trans (latchedInFault_of_ne_rdcr hi (s.setCmd rest) herr)

/-- Settles O54: RDCR reads its register, every other word meets the gate. -/
theorem faultStateAnswersLatchedCode : Obligations.FaultStateAnswersLatchedCode := by
  intro s w rest hcmd herr
  refine ⟨s.flt_iff.mpr herr, fun n r hdec hr => ?_, fun hw => step_latched hcmd herr hw⟩
  rw [step_of_decode_ok hcmd hdec, exec_rdcr_of_register hr, State.setCmd_ctrl]
  rfl

/-- In the fault state every command emits one word and does nothing else (R101). -/
theorem exec_emits_only_of_fault {s : State} (herr : s.err ≠ 0#8) (i : Instr) :
    ∃ code data, exec i s = .next (s.emit code data) := by
  by_cases hi : ∃ n, i = .rdcr n
  · obtain ⟨n, rfl⟩ := hi
    cases hr : ctrlRegOf n with
    | some r => exact ⟨_, _, exec_rdcr_of_register hr s⟩
    | none =>
      refine ⟨s.err, 0x00#8, ?_⟩
      rw [exec, execRdcr, hr]
      exact takeIllegal_of_fault herr
  · exact ⟨_, _, latchedInFault_of_ne_rdcr (fun n hn => hi ⟨n, hn⟩) s herr⟩

/-- With no reset pending, a step in the fault state changes only CMD and RSP, and brings no reset onto CMD (R102). -/
theorem step_frozen {s t : State} (herr : s.err ≠ 0#8) (hcmd : HostAction.reset ∉ s.cmd) (h : step s = .next t) :
    ∃ cmd rsp, t = { s with cmd := cmd, rsp := rsp } ∧ HostAction.reset ∉ cmd := by
  rcases step_cases s with ⟨-, hs⟩ | ⟨rest, hc, -⟩ | ⟨w, rest, i, hc, -, hs⟩ | ⟨w, rest, e, hc, -, hs⟩
  · rw [hs] at h
    injection h with h
    exact ⟨s.cmd, s.rsp, h.symm, hcmd⟩
  · simp [hc] at hcmd
  · obtain ⟨code, data, hexec⟩ := exec_emits_only_of_fault (s := s.setCmd rest) herr i
    rw [hs, hexec] at h
    injection h with h
    exact ⟨rest, _, h.symm, by simpa [hc] using hcmd⟩
  · rw [hs, takeIllegal_of_fault (s := s.setCmd rest) herr] at h
    injection h with h
    exact ⟨rest, _, h.symm, by simpa [hc] using hcmd⟩

/-- Settles O55, by induction on the steps: each leaves the block's state, and so ERR ≠ 0. -/
theorem faultStateIsFrozenUntilReset : Obligations.FaultStateIsFrozenUntilReset := by
  intro k
  induction k with
  | zero =>
    intro s t _ _ h
    injection h with h
    rw [h]
  | succ k ih =>
    intro s t herr hcmd h
    rw [runSteps] at h
    split at h
    · rename_i u hu
      obtain ⟨cmd, rsp, rfl, hcmd'⟩ := step_frozen herr hcmd hu
      exact ih { s with cmd := cmd, rsp := rsp } t herr hcmd' h
    · cases h
    · cases h

end Sys2Proof.Machine
end

section
/-! Reset (spec/70_reset_and_hazards.md R106, R107): the block starts over; what the host has presented and what it has
been answered stay. -/

namespace Sys2Proof.Machine

/-- R107: the reset at the head of CMD is taken off, then the block is reset. -/
theorem step_of_cmd_reset {s : State} {rest : List HostAction} (hcmd : s.cmd = .reset :: rest) :
    step s = .next (s.setCmd rest).resetBlock := by
  simp only [step, hcmd]

/-- R106: a reset keeps of the state before it only the actions still pending and the words emitted. -/
theorem resetBlock_setCmd (s : State) (rest : List HostAction) :
    (s.setCmd rest).resetBlock = { State.reset with cmd := rest, rsp := s.rsp } := by
  rw [State.resetBlock, State.setCmd_cmd, State.setCmd_rsp]

/-- Settles O15: the step is the block's reset, which reads nothing of the state but CMD and RSP. -/
theorem resetActionRestoresResetState : Obligations.ResetActionRestoresResetState := by
  intro s rest hcmd
  rw [step_of_cmd_reset hcmd, resetBlock_setCmd]

end Sys2Proof.Machine
end
